-- ==== Sys2Proof/Word.lean ====
section
/-! DEFINITION. The value types of the machine, all unsigned (00_scope.md R3, R11, R12). -/

namespace Sys2Proof

/-- A memory byte, a general register, a timer, an immediate NN: 8 bits (R3, R9). -/
abbrev Byte := BitVec 8

/-- An instruction word, `pc`, `I`, a stack entry: 16 bits (R3, R9). -/
abbrev Word := BitVec 16

/-- An immediate address NNN: 12 bits (30_encoding.md R101). -/
abbrev Addr := BitVec 12

/-- A nibble of an instruction word: 4 bits (00_scope.md R16). -/
abbrev Nibble := BitVec 4

/-- The number of a general register, 0 for V0 up to 15 for VF (10_state.md R31). -/
abbrev RegIdx := Fin 16

/-- VF, the flag register: an ordinary register with number 15 (10_state.md R35). -/
abbrev vF : RegIdx := 15

/-- V0, the register `JP V0, nnn` reads implicitly (41_flow.md R152). -/
abbrev v0 : RegIdx := 0

end Sys2Proof
end

