-- ==== Sys2Proof/Syntax.lean ====
section
/-! DEFINITION. The instructions: one constructor for each of the 34 rows of the opcode table
(30_encoding.md R105, spec/opcode_table.json), in the table's order, with its operands as decoded (R103). -/

namespace Sys2Proof

/-- The CORE instruction set (00_scope.md R2). The types of the operands bound them (R103): a register number is
below 16, NN below 256, NNN below 4096, N below 16, so that every value of this type is an instruction. -/
inductive Instr where
  /-- Row 1, 00E0 `CLS` -/
  | cls
  /-- Row 2, 00EE `RET` -/
  | ret
  /-- Row 3, 1nnn `JP nnn` -/
  | jp (nnn : Addr)
  /-- Row 4, 2nnn `CALL nnn` -/
  | call (nnn : Addr)
  /-- Row 5, 3xnn `SE Vx, nn` -/
  | seImm (x : RegIdx) (nn : Byte)
  /-- Row 6, 4xnn `SNE Vx, nn` -/
  | sneImm (x : RegIdx) (nn : Byte)
  /-- Row 7, 5xy0 `SE Vx, Vy` -/
  | seReg (x y : RegIdx)
  /-- Row 8, 6xnn `LD Vx, nn` -/
  | ldImm (x : RegIdx) (nn : Byte)
  /-- Row 9, 7xnn `ADD Vx, nn` -/
  | addImm (x : RegIdx) (nn : Byte)
  /-- Row 10, 8xy0 `LD Vx, Vy` -/
  | ldReg (x y : RegIdx)
  /-- Row 11, 8xy1 `OR Vx, Vy` -/
  | orReg (x y : RegIdx)
  /-- Row 12, 8xy2 `AND Vx, Vy` -/
  | andReg (x y : RegIdx)
  /-- Row 13, 8xy3 `XOR Vx, Vy` -/
  | xorReg (x y : RegIdx)
  /-- Row 14, 8xy4 `ADD Vx, Vy` -/
  | addReg (x y : RegIdx)
  /-- Row 15, 8xy5 `SUB Vx, Vy` -/
  | subReg (x y : RegIdx)
  /-- Row 16, 8xy6 `SHR Vx`: Y is matched by nothing and read by nothing (R106); it is kept so that no bit of the
  word is lost. -/
  | shr (x y : RegIdx)
  /-- Row 17, 8xy7 `SUBN Vx, Vy` -/
  | subn (x y : RegIdx)
  /-- Row 18, 8xyE `SHL Vx`: Y is ignored, as for `SHR Vx` (R106). -/
  | shl (x y : RegIdx)
  /-- Row 19, 9xy0 `SNE Vx, Vy` -/
  | sneReg (x y : RegIdx)
  /-- Row 20, Annn `LD I, nnn` -/
  | ldI (nnn : Addr)
  /-- Row 21, Bnnn `JP V0, nnn` -/
  | jpV0 (nnn : Addr)
  /-- Row 22, Cxnn `RND Vx, nn` -/
  | rnd (x : RegIdx) (nn : Byte)
  /-- Row 23, Dxyn `DRW Vx, Vy, n` -/
  | drw (x y : RegIdx) (n : Nibble)
  /-- Row 24, Ex9E `SKP Vx` -/
  | skp (x : RegIdx)
  /-- Row 25, ExA1 `SKNP Vx` -/
  | sknp (x : RegIdx)
  /-- Row 26, Fx07 `LD Vx, DT` -/
  | ldVxDt (x : RegIdx)
  /-- Row 27, Fx0A `LD Vx, K` -/
  | ldVxK (x : RegIdx)
  /-- Row 28, Fx15 `LD DT, Vx` -/
  | ldDtVx (x : RegIdx)
  /-- Row 29, Fx18 `LD ST, Vx` -/
  | ldStVx (x : RegIdx)
  /-- Row 30, Fx1E `ADD I, Vx` -/
  | addI (x : RegIdx)
  /-- Row 31, Fx29 `LD F, Vx` -/
  | ldF (x : RegIdx)
  /-- Row 32, Fx33 `LD B, Vx` -/
  | ldB (x : RegIdx)
  /-- Row 33, Fx55 `LD [I], Vx` -/
  | storeRegs (x : RegIdx)
  /-- Row 34, Fx65 `LD Vx, [I]` -/
  | loadRegs (x : RegIdx)
  deriving DecidableEq, Repr

end Sys2Proof
end

