-- ==== Sys2Proof/WellFormed.lean ====
section
/-! DEFINITION. Well-formedness. An `Instr` is well formed by its type. What can be ill formed is a term as a
programmer writes it: one item of assembler source (30_encoding.md R115, R116), whose register digits and numbers must
fit their fields and whose operands must be of a form the mnemonic has in the table (R105, R106); and a set of decoded
fields, which overlap (R101). The mnemonics and operand names are PRESUMED (the spec's G4; log 32), safe: behaviour
never depends on a mnemonic. -/

namespace Sys2Proof

/-- The mnemonics of R105's table: several rows share one (`LD` has eleven). -/
inductive Mnem where
  | CLS | RET | JP | CALL | SE | SNE | LD | ADD | OR | AND | XOR | SUB | SHR | SUBN | SHL | RND | DRW | SKP | SKNP
  deriving DecidableEq, Repr

/-- An operand as written (R115): `Vn`, a number, a label, or one of the literal operand names. -/
inductive Operand where
  | v (n : Nat)
  | num (n : Nat)
  | lab (l : Nat)
  | I | DT | ST | K | F | B
  | memI
  deriving DecidableEq, Repr

/-- One item of assembler source (R115): an instruction line, the data directives `DB` and `DW`, a label (named by a
number, since only the identity of a name matters). -/
inductive AsmItem where
  | instr (m : Mnem) (ops : List Operand)
  | db (bytes : List Nat)
  | dw (word : Nat)
  | label (l : Nat)
  deriving DecidableEq, Repr

/-- A number written in source fits a field of `bits` bits (R115). -/
def fitsBits (bits n : Nat) : Bool := n < 2 ^ bits

/-- An operand list is one the mnemonic has in the table of R105 (and `SHR` also with a second register, R106), each
register digit fits 4 bits, each immediate the 12, 8 or 4 bits of its field (R103, R115). Labels stand for numbers and have
been replaced by then, so a label left over is ill formed. `SHL` with a second register: DESIGN CHOICE (log 38), safe: R106
states it for `SHR` alone. -/
def operandsWf : Mnem → List Operand → Bool
  | .CLS, [] => true
  | .RET, [] => true
  | .JP, [.num a] => fitsBits 12 a
  | .JP, [.v r, .num a] => r == 0 && fitsBits 12 a
  | .CALL, [.num a] => fitsBits 12 a
  | .SE, [.v x, .num n] => fitsBits 4 x && fitsBits 8 n
  | .SE, [.v x, .v y] => fitsBits 4 x && fitsBits 4 y
  | .SNE, [.v x, .num n] => fitsBits 4 x && fitsBits 8 n
  | .SNE, [.v x, .v y] => fitsBits 4 x && fitsBits 4 y
  | .LD, [.v x, .num n] => fitsBits 4 x && fitsBits 8 n
  | .LD, [.v x, .v y] => fitsBits 4 x && fitsBits 4 y
  | .LD, [.I, .num a] => fitsBits 12 a
  | .LD, [.v x, .DT] => fitsBits 4 x
  | .LD, [.v x, .K] => fitsBits 4 x
  | .LD, [.DT, .v x] => fitsBits 4 x
  | .LD, [.ST, .v x] => fitsBits 4 x
  | .LD, [.F, .v x] => fitsBits 4 x
  | .LD, [.B, .v x] => fitsBits 4 x
  | .LD, [.memI, .v x] => fitsBits 4 x
  | .LD, [.v x, .memI] => fitsBits 4 x
  | .ADD, [.v x, .num n] => fitsBits 4 x && fitsBits 8 n
  | .ADD, [.v x, .v y] => fitsBits 4 x && fitsBits 4 y
  | .ADD, [.I, .v x] => fitsBits 4 x
  | .OR, [.v x, .v y] => fitsBits 4 x && fitsBits 4 y
  | .AND, [.v x, .v y] => fitsBits 4 x && fitsBits 4 y
  | .XOR, [.v x, .v y] => fitsBits 4 x && fitsBits 4 y
  | .SUB, [.v x, .v y] => fitsBits 4 x && fitsBits 4 y
  | .SHR, [.v x] => fitsBits 4 x
  | .SHR, [.v x, .v y] => fitsBits 4 x && fitsBits 4 y
  | .SUBN, [.v x, .v y] => fitsBits 4 x && fitsBits 4 y
  | .SHL, [.v x] => fitsBits 4 x
  | .SHL, [.v x, .v y] => fitsBits 4 x && fitsBits 4 y
  | .RND, [.v x, .num n] => fitsBits 4 x && fitsBits 8 n
  | .DRW, [.v x, .v y, .num n] => fitsBits 4 x && fitsBits 4 y && fitsBits 4 n
  | .SKP, [.v x] => fitsBits 4 x
  | .SKNP, [.v x] => fitsBits 4 x
  | _, _ => false

/-- One item of source is well formed (R115): literal bytes fit 8 bits, a literal word 16. -/
def AsmItem.wf : AsmItem → Bool
  | .instr m ops => operandsWf m ops
  | .db bytes => bytes.all (fitsBits 8)
  | .dw w => fitsBits 16 w
  | .label _ => true

/-- The fields the decoder extracts from every word, used or not (30_encoding.md R101). -/
structure Fields where
  /-- G, bits 15:12 -/
  g : Nibble
  /-- X, bits 11:8 -/
  x : RegIdx
  /-- Y, bits 7:4 -/
  y : RegIdx
  /-- N, bits 3:0 -/
  n : Nibble
  /-- NN, bits 7:0 -/
  nn : Byte
  /-- NNN, bits 11:0 -/
  nnn : Addr
  deriving DecidableEq, Repr

/-- The fields overlap: "`NNN = X*256 + NN`, `NN = Y*16 + N`" (R101). -/
def Fields.wf (f : Fields) : Bool :=
  f.nnn.toNat == f.x.val * 256 + f.nn.toNat && f.nn.toNat == f.y.val * 16 + f.n.toNat

end Sys2Proof
end

