-- ==== Sys2Proof/Decode.lean ====
section
/-! DEFINITION. The decoder, total on every word and on any bytes, rejecting by name (30_encoding.md R100 to R112);
after it the encoder, written from the same table; and the table itself (R105) as data. -/

namespace Sys2Proof

/-- What a word decodes to (R104): one of the 34 instructions, or, by name, an unrecognized word (R110). -/
inductive Decoded where
  | instr (i : Instr)
  | unrecognized (op : Word)
  deriving DecidableEq, Repr

/-- A nibble of the word as a register number (R103). -/
def regOfNibble (b : Nibble) : RegIdx := ⟨b.toNat, b.isLt⟩

/-- A register number as the nibble that stands for it in a word (R103). -/
def nibbleOfReg (r : RegIdx) : Nibble := ⟨r⟩

/-- All six fields, from every word (R101, 40_step_cycle.md R134). -/
def fieldsOf (op : Word) : Fields where
  g := op.extractLsb' 12 4
  x := regOfNibble (op.extractLsb' 8 4)
  y := regOfNibble (op.extractLsb' 4 4)
  n := op.extractLsb' 0 4
  nn := op.extractLsb' 0 8
  nnn := op.extractLsb' 0 12

/-- Group 0 matches on all 16 bits (R104). -/
def decodeGroup0 (op : Word) : Decoded :=
  if op = 0x00E0#16 then .instr .cls
  else if op = 0x00EE#16 then .instr .ret
  else .unrecognized op

/-- Group 8 is sub-selected by the low nibble (R104). -/
def decodeGroup8 (op : Word) (f : Fields) : Decoded :=
  match f.n.toNat with
  | 0x0 => .instr (.ldReg f.x f.y)
  | 0x1 => .instr (.orReg f.x f.y)
  | 0x2 => .instr (.andReg f.x f.y)
  | 0x3 => .instr (.xorReg f.x f.y)
  | 0x4 => .instr (.addReg f.x f.y)
  | 0x5 => .instr (.subReg f.x f.y)
  | 0x6 => .instr (.shr f.x f.y)
  | 0x7 => .instr (.subn f.x f.y)
  | 0xE => .instr (.shl f.x f.y)
  | _ => .unrecognized op

/-- Group E is sub-selected by the low byte (R104). -/
def decodeGroupE (op : Word) (f : Fields) : Decoded :=
  if f.nn = 0x9E#8 then .instr (.skp f.x)
  else if f.nn = 0xA1#8 then .instr (.sknp f.x)
  else .unrecognized op

/-- Group F is sub-selected by the low byte (R104). -/
def decodeGroupF (op : Word) (f : Fields) : Decoded :=
  if f.nn = 0x07#8 then .instr (.ldVxDt f.x)
  else if f.nn = 0x0A#8 then .instr (.ldVxK f.x)
  else if f.nn = 0x15#8 then .instr (.ldDtVx f.x)
  else if f.nn = 0x18#8 then .instr (.ldStVx f.x)
  else if f.nn = 0x1E#8 then .instr (.addI f.x)
  else if f.nn = 0x29#8 then .instr (.ldF f.x)
  else if f.nn = 0x33#8 then .instr (.ldB f.x)
  else if f.nn = 0x55#8 then .instr (.storeRegs f.x)
  else if f.nn = 0x65#8 then .instr (.loadRegs f.x)
  else .unrecognized op

/-- The decode procedure of R104: the group by the high nibble, then the low nibble or the low byte; every fixed nibble
of a pattern is checked (the spec's choice D14; log 16). A function of the word alone (40_step_cycle.md R134). -/
def decodeWord (op : Word) : Decoded :=
  let f := fieldsOf op
  match f.g.toNat with
  | 0x0 => decodeGroup0 op
  | 0x1 => .instr (.jp f.nnn)
  | 0x2 => .instr (.call f.nnn)
  | 0x3 => .instr (.seImm f.x f.nn)
  | 0x4 => .instr (.sneImm f.x f.nn)
  | 0x5 => if f.n = 0#4 then .instr (.seReg f.x f.y) else .unrecognized op
  | 0x6 => .instr (.ldImm f.x f.nn)
  | 0x7 => .instr (.addImm f.x f.nn)
  | 0x8 => decodeGroup8 op f
  | 0x9 => if f.n = 0#4 then .instr (.sneReg f.x f.y) else .unrecognized op
  | 0xA => .instr (.ldI f.nnn)
  | 0xB => .instr (.jpV0 f.nnn)
  | 0xC => .instr (.rnd f.x f.nn)
  | 0xD => .instr (.drw f.x f.y f.n)
  | 0xE => decodeGroupE op f
  | _ => decodeGroupF op f

/-- The word two consecutive bytes hold: the byte at the lower address is the high one (20_memory.md R73).
PRESUMED (the spec's G1, D1; log 6), unsafe. -/
def wordOfBytes (hi lo : Byte) : Word := hi ++ lo

/-- The high byte of a word, the one at the lower address (R73; log 6). -/
def highByte (op : Word) : Byte := op.extractLsb' 8 8

/-- The low byte of a word (R73; log 6). -/
def lowByte (op : Word) : Byte := op.extractLsb' 0 8

/-- What the head of a list of bytes decodes to: a word's meaning and the bytes after it, or, by name, too few bytes
for a word (R100: one length, two bytes). -/
inductive DecodedBytes where
  | word (d : Decoded) (rest : List Byte)
  | truncated (bytes : List Byte)
  deriving DecidableEq, Repr

/-- The decoder on any bytes. -/
def decodeBytes : List Byte → DecodedBytes
  | hi :: lo :: rest => .word (decodeWord (wordOfBytes hi lo)) rest
  | short => .truncated short

/-! ### The encoder -/

/-- Format A: group, NNN (R102). -/
def formatA (g : Nibble) (nnn : Addr) : Word := g ++ nnn

/-- Formats I and S: group, X, then the immediate or sub-opcode byte (R102). -/
def formatI (g : Nibble) (x : RegIdx) (nn : Byte) : Word := g ++ nibbleOfReg x ++ nn

/-- Formats R and D: group, X, Y, then the sub-opcode or N (R102). -/
def formatR (g : Nibble) (x y : RegIdx) (n : Nibble) : Word := g ++ nibbleOfReg x ++ nibbleOfReg y ++ n

/-- The word of each instruction, from the patterns of R105. -/
def encode : Instr → Word
  | .cls => 0x00E0
  | .ret => 0x00EE
  | .jp nnn => formatA 0x1 nnn
  | .call nnn => formatA 0x2 nnn
  | .seImm x nn => formatI 0x3 x nn
  | .sneImm x nn => formatI 0x4 x nn
  | .seReg x y => formatR 0x5 x y 0x0
  | .ldImm x nn => formatI 0x6 x nn
  | .addImm x nn => formatI 0x7 x nn
  | .ldReg x y => formatR 0x8 x y 0x0
  | .orReg x y => formatR 0x8 x y 0x1
  | .andReg x y => formatR 0x8 x y 0x2
  | .xorReg x y => formatR 0x8 x y 0x3
  | .addReg x y => formatR 0x8 x y 0x4
  | .subReg x y => formatR 0x8 x y 0x5
  | .shr x y => formatR 0x8 x y 0x6
  | .subn x y => formatR 0x8 x y 0x7
  | .shl x y => formatR 0x8 x y 0xE
  | .sneReg x y => formatR 0x9 x y 0x0
  | .ldI nnn => formatA 0xA nnn
  | .jpV0 nnn => formatA 0xB nnn
  | .rnd x nn => formatI 0xC x nn
  | .drw x y n => formatR 0xD x y n
  | .skp x => formatI 0xE x 0x9E
  | .sknp x => formatI 0xE x 0xA1
  | .ldVxDt x => formatI 0xF x 0x07
  | .ldVxK x => formatI 0xF x 0x0A
  | .ldDtVx x => formatI 0xF x 0x15
  | .ldStVx x => formatI 0xF x 0x18
  | .addI x => formatI 0xF x 0x1E
  | .ldF x => formatI 0xF x 0x29
  | .ldB x => formatI 0xF x 0x33
  | .storeRegs x => formatI 0xF x 0x55
  | .loadRegs x => formatI 0xF x 0x65

/-- The two bytes of an instruction, high byte first (R73, R100). -/
def encodeBytes (i : Instr) : List Byte := [highByte (encode i), lowByte (encode i)]

/-! ### The opcode table as data -/

/-- One row of R105: a word `op` selects it when `op & mask == match`. -/
structure Row where
  mask : Word
  pattern : Word
  deriving DecidableEq, Repr

/-- The word selects the row (R105). -/
def Row.selectedBy (r : Row) (op : Word) : Bool := op &&& r.mask == r.pattern

/-- Rows 1 to 9 of R105. -/
def rows1to9 : List Row :=
  [⟨0xFFFF, 0x00E0⟩, ⟨0xFFFF, 0x00EE⟩, ⟨0xF000, 0x1000⟩, ⟨0xF000, 0x2000⟩, ⟨0xF000, 0x3000⟩, ⟨0xF000, 0x4000⟩,
   ⟨0xF00F, 0x5000⟩, ⟨0xF000, 0x6000⟩, ⟨0xF000, 0x7000⟩]

/-- Rows 10 to 18 of R105. -/
def rows10to18 : List Row :=
  [⟨0xF00F, 0x8000⟩, ⟨0xF00F, 0x8001⟩, ⟨0xF00F, 0x8002⟩, ⟨0xF00F, 0x8003⟩, ⟨0xF00F, 0x8004⟩, ⟨0xF00F, 0x8005⟩,
   ⟨0xF00F, 0x8006⟩, ⟨0xF00F, 0x8007⟩, ⟨0xF00F, 0x800E⟩]

/-- Rows 19 to 34 of R105. -/
def rows19to34 : List Row :=
  [⟨0xF00F, 0x9000⟩, ⟨0xF000, 0xA000⟩, ⟨0xF000, 0xB000⟩, ⟨0xF000, 0xC000⟩, ⟨0xF000, 0xD000⟩, ⟨0xF0FF, 0xE09E⟩,
   ⟨0xF0FF, 0xE0A1⟩, ⟨0xF0FF, 0xF007⟩, ⟨0xF0FF, 0xF00A⟩, ⟨0xF0FF, 0xF015⟩, ⟨0xF0FF, 0xF018⟩, ⟨0xF0FF, 0xF01E⟩,
   ⟨0xF0FF, 0xF029⟩, ⟨0xF0FF, 0xF033⟩, ⟨0xF0FF, 0xF055⟩, ⟨0xF0FF, 0xF065⟩]

/-- The complete opcode table of R105, row 1 first. -/
def opcodeRows : List Row := rows1to9 ++ rows10to18 ++ rows19to34

/-- The number of the instruction's row in R105's table, 1 to 34. -/
def rowNumber : Instr → Nat
  | .cls => 1
  | .ret => 2
  | .jp _ => 3
  | .call _ => 4
  | .seImm _ _ => 5
  | .sneImm _ _ => 6
  | .seReg _ _ => 7
  | .ldImm _ _ => 8
  | .addImm _ _ => 9
  | .ldReg _ _ => 10
  | .orReg _ _ => 11
  | .andReg _ _ => 12
  | .xorReg _ _ => 13
  | .addReg _ _ => 14
  | .subReg _ _ => 15
  | .shr _ _ => 16
  | .subn _ _ => 17
  | .shl _ _ => 18
  | .sneReg _ _ => 19
  | .ldI _ => 20
  | .jpV0 _ => 21
  | .rnd _ _ => 22
  | .drw _ _ _ => 23
  | .skp _ => 24
  | .sknp _ => 25
  | .ldVxDt _ => 26
  | .ldVxK _ => 27
  | .ldDtVx _ => 28
  | .ldStVx _ => 29
  | .addI _ => 30
  | .ldF _ => 31
  | .ldB _ => 32
  | .storeRegs _ => 33
  | .loadRegs _ => 34

/-! ### The host's question about one word -/

/-- The instruction the decoder reads from the word with the bits `w` of a row of `nbits` bits, laid out as the
hardware stores it: the high byte at the lower address (R73). No instruction is longer than 16 bits (R100). -/
def decodeTableWord (nbits w : Nat) : Option Instr :=
  let op : Word := BitVec.ofNat 16 (w % 2 ^ nbits)
  if 16 < nbits then none
  else
    match decodeBytes [highByte op, lowByte op] with
    | .word (.instr i) _ => some i
    | .word (.unrecognized _) _ => none
    | .truncated _ => none

end Sys2Proof
end

