-- ==== Sys2Proof/Config.lean ====
section
/-! DEFINITION. The fixed parameters of the hardware (00_scope.md R9), the two parameters the spec leaves open
(R10): the font table, at the spec's default, and the random byte, a free value. -/

namespace Sys2Proof.Config

/-- MEM_SIZE (R9): bytes of memory, at addresses 0x000 to 0xFFF. -/
abbrev memSize : Nat := 4096

/-- STACK_DEPTH (R9). -/
abbrev stackDepth : Nat := 16

/-- FB_W (R9). -/
abbrev fbWidth : Nat := 64

/-- FB_H (R9). -/
abbrev fbHeight : Nat := 32

/-- PROG_BASE (R9): where a program is loaded and where `pc` starts. -/
abbrev progBase : Nat := 0x200

/-- FONT_LEN (R9): the font table is at 0x000 to 0x04F. -/
abbrev fontLen : Nat := 80

/-- GLYPH_STRIDE (R9). -/
abbrev glyphStride : Nat := 5

/-- MAX_PROG_LEN (R9). -/
abbrev maxProgLen : Nat := 3584

/-- The default font table (20_memory.md R76), glyphs 0 to 3.
PRESUMED (the spec's G2, general knowledge; log 1), unsafe. -/
def fontGlyphs0to3 : List Byte :=
  [0xF0, 0x90, 0x90, 0x90, 0xF0] ++ [0x20, 0x60, 0x20, 0x20, 0x70] ++
  [0xF0, 0x10, 0xF0, 0x80, 0xF0] ++ [0xF0, 0x10, 0xF0, 0x10, 0xF0]

/-- The default font table, glyphs 4 to 7. PRESUMED (log 1), unsafe. -/
def fontGlyphs4to7 : List Byte :=
  [0x90, 0x90, 0xF0, 0x10, 0x10] ++ [0xF0, 0x80, 0xF0, 0x10, 0xF0] ++
  [0xF0, 0x80, 0xF0, 0x90, 0xF0] ++ [0xF0, 0x10, 0x20, 0x40, 0x40]

/-- The default font table, glyphs 8 to B. PRESUMED (log 1), unsafe. -/
def fontGlyphs8toB : List Byte :=
  [0xF0, 0x90, 0xF0, 0x90, 0xF0] ++ [0xF0, 0x90, 0xF0, 0x10, 0xF0] ++
  [0xF0, 0x90, 0xF0, 0x90, 0x90] ++ [0xE0, 0x90, 0xE0, 0x90, 0xE0]

/-- The default font table, glyphs C to F. PRESUMED (log 1), unsafe. -/
def fontGlyphsCtoF : List Byte :=
  [0xF0, 0x80, 0x80, 0x80, 0xF0] ++ [0xE0, 0x90, 0x90, 0x90, 0xE0] ++
  [0xF0, 0x80, 0xF0, 0x80, 0xF0] ++ [0xF0, 0x80, 0xF0, 0x80, 0x80]

/-- FONT[0..79] (R10, R76): the table that memory holds at 0x000 to 0x04F after `State.reset`.
The spec makes it a parameter and gives this default. `State.resetWith` takes any other table.
PRESUMED (log 1), unsafe: a claim may lean on these bytes. -/
def font : Vector Byte fontLen :=
  ⟨(fontGlyphs0to3 ++ fontGlyphs4to7 ++ fontGlyphs8toB ++ fontGlyphsCtoF).toArray, by decide⟩

/-- The random byte of a step to which the host presents none (40_step_cycle.md R133): a free value, chosen afresh
for every step (the argument is the number of steps completed), under no law.
DESIGN CHOICE in form (log 3), safe: nothing can be proved of its values. -/
opaque freeByte : Nat → Byte

end Sys2Proof.Config
end

