-- ==== Sys2Proof/Machine/State.lean ====
section
/-! DEFINITION. The state of the machine (10_state.md), as plain data, its value after reset (R301), and the two closed
lists of reasons a step can stop. -/

namespace Sys2Proof.Machine

/-- Memory (10_state.md R57): a list of address and byte pairs, addresses strictly rising, listing only bytes that
differ from what an unlisted address reads as (`Memory.unlisted`, the contents after reset). -/
abbrev Memory := List Host.Cell

/-- The framebuffer (10_state.md R54): `fb[px][py]` is bit `px` of entry `py`, so an entry is one row of 64 pixels of
one bit. The layout inside this value is the model's (log 33), safe: it is read and written only through
`Framebuffer.pixel`, `Framebuffer.toggle` and `Framebuffer.clear`. -/
abbrev Framebuffer := Vector (BitVec 64) 32

/-- The 16 key flags, indexed 0x0 to 0xF, true for pressed (10_state.md R55). -/
abbrev Keys := Vector Bool 16

/-- What the host presents to one step (40_step_cycle.md R132): the key flags and the random byte, each only if the
host supplies it. The model's own type (log 2). -/
structure StepInput where
  keys : Option Keys
  rnd : Option Byte
  deriving DecidableEq, Repr

/-- The unrecognized-word diagnostic: the word and the address it was fetched from (60_exceptions.md R268). -/
structure Diag where
  op : Word
  pc : Word
  deriving DecidableEq, Repr

/-- The outputs of a completed step other than its status (40_step_cycle.md R131). -/
structure Outputs where
  /-- the step executed 00E0 or Dxyn -/
  changed : Bool
  /-- the epilogue took `st` from 1 to 0 -/
  tone : Bool
  /-- valid (some) iff the fetched word was unrecognized -/
  diag : Option Diag
  deriving DecidableEq, Repr

/-- The outputs of a step that raises none of them. -/
abbrev Outputs.none : Outputs := ⟨false, false, Option.none⟩

/-- The state of the core (10_state.md R30), then the model's own fields: what the host will present (`inputs`,
`draws`; logs 2 and 3) and what the last completed step gave it (`out`; log 4). -/
structure State where
  /-- V0 to VF (R31) -/
  x : Vector Byte 16
  /-- the index register (R38) -/
  I : Word
  /-- the program counter (R41) -/
  pc : Word
  /-- the stack pointer, the number of entries in use, 0 to 16 (R46) -/
  sp : Fin 17
  /-- the call stack (R46) -/
  stack : Vector Word 16
  /-- the delay timer (R51) -/
  dt : Byte
  /-- the sound timer (R51) -/
  st : Byte
  /-- memory (R57) -/
  mem : Memory
  /-- the framebuffer (R54) -/
  fb : Framebuffer
  /-- the sticky dirty flag of the framebuffer (R56) -/
  fbDirty : Bool
  /-- the stored copy of the key flags (R55) -/
  keys : Keys
  /-- what the host presents to the coming steps, the next step first (log 2) -/
  inputs : List StepInput
  /-- how many steps have completed: the argument of the free random byte (log 3) -/
  draws : Nat
  /-- the outputs of the last completed step (R131; log 4) -/
  out : Outputs
  deriving DecidableEq, Repr

/-- The state after reset (70_reset_and_hazards.md R301), with the spec's default FONT (log 1). Memory lists nothing:
what an unlisted address reads as is the reset contents. The values of `I`, `dt`, `st`, `keys` and `fbDirty` are the
spec's choice D15 (log 17); those of `inputs`, `draws` and `out` are the model's DESIGN CHOICE (log 29). -/
def State.reset : State where
  x := Vector.replicate 16 0
  I := 0
  pc := 0x200
  sp := 0
  stack := Vector.replicate 16 0
  dt := 0
  st := 0
  mem := []
  fb := Vector.replicate 32 0
  fbDirty := false
  keys := Vector.replicate 16 false
  inputs := []
  draws := 0
  out := Outputs.none

/-- The five causes of a halt, each with the information it records (60_exceptions.md R261). A halting step changes no
state (R262), so the outcome carries none. -/
inductive Fault where
  /-- Code 1: raised by every step before its fetch when `pc + 1 ≥ 4096` (R263). The source states it. -/
  | fetchOutOfBounds (pc : Word)
  /-- Code 2: raised by 2nnn when `sp = 16` (R264). The spec's choice D5 (log 9), safe: the machine stops. -/
  | stackOverflow (pc op : Word)
  /-- Code 3: raised by 00EE when `sp = 0` (R265). The spec's choice D5 (log 9), safe: the machine stops. -/
  | stackUnderflow (pc op : Word)
  /-- Code 4: raised by Dxyn with N > 0, Fx33, Fx55, Fx65 when a byte of their range is at 4096 or beyond (R266).
  The spec's choice D8 (log 10), safe: the machine stops. -/
  | dataOutOfBounds (pc op I : Word)
  /-- Code 5: raised by Ex9E and ExA1 when VX > 15 (R267). The spec's choice D9 (log 11), safe: the machine stops. -/
  | keyIndexOutOfRange (pc op : Word) (vx : Byte)
  deriving DecidableEq, Repr

/-- The reasons a step is refused. -/
inductive Refusal where
  /-- Raised by an arm of exec whose instruction has no meaning yet; safe. No arm raises it: every instruction of the
  table has its meaning. -/
  | notModelled (mnemonic : String)
  deriving DecidableEq, Repr

end Sys2Proof.Machine
end

