-- ==== Sys2Proof/Machine/Ops.lean ====
section
/-! DEFINITION. The named operations over memory, the framebuffer, the registers, the call stack, the ports and the
timers; the halt, the one way a step stops (60_exceptions.md); the fetch; the start and the end of a step
(40_step_cycle.md). Every instruction is written over these. -/

namespace Sys2Proof.Machine

/-! ### Memory (20_memory.md) -/

/-- What an address that memory does not list reads as: its contents after reset (10_state.md R57), FONT at 0x000 to
0x04F and 0 elsewhere (log 1 for FONT). -/
def Memory.unlisted (a : Nat) : Byte :=
  if h : a < Config.fontLen then Config.font[a] else 0

/-- `mem[a]` (R72). The bounds of an access are tested by the instruction that makes it (R74). -/
def Memory.byteAt : Memory → Nat → Byte
  | [], a => Memory.unlisted a
  | (b, v) :: rest, a => if b = a then v else Memory.byteAt rest a

/-- The cell in its place among cells with rising addresses. -/
def Memory.insert (c : Host.Cell) : Memory → Memory
  | [] => [c]
  | d :: rest => if c.1 < d.1 then c :: d :: rest else d :: Memory.insert c rest

/-- `mem[a] <- v` (R72), keeping the one canonical form: the old entry of `a` goes, and a new one comes only if `v` is
not what an unlisted `a` reads as. -/
def Memory.set (m : Memory) (a : Nat) (v : Byte) : Memory :=
  let others := m.filter (fun c => c.1 != a)
  if v = Memory.unlisted a then others else Memory.insert (a, v) others

/-- The canonical form: addresses of the address space (R70), strictly rising, and no entry that an unlisted address
reads as anyway. -/
def Memory.wf (m : Memory) : Bool :=
  decide (m.Pairwise (fun c d => c.1 < d.1)) &&
    m.all (fun c => decide (c.1 < Config.memSize) && c.2 != Memory.unlisted c.1)

/-- Consecutive bytes from address `a` upward, one at a time (R72): the program load port (70_reset_and_hazards.md
R306) and Fx33 (43_index_memory.md R203). -/
def Memory.setList (m : Memory) (a : Nat) : List Byte → Memory
  | [] => m
  | b :: bs => Memory.setList (m.set a b) (a + 1) bs

/-! ### The framebuffer (10_state.md R54) -/

/-- `fb[px][py]` -/
def Framebuffer.pixel (fb : Framebuffer) (px : Fin 64) (py : Fin 32) : Bool :=
  fb[py.val].getLsbD px.val

/-- `fb[px][py] <- fb[px][py] ^ 1` -/
def Framebuffer.toggle (fb : Framebuffer) (px : Fin 64) (py : Fin 32) : Framebuffer :=
  fb.set py.val (fb[py.val] ^^^ (1#64 <<< px.val))

/-- Every pixel 0. -/
def Framebuffer.clear : Framebuffer := Vector.replicate 32 0

/-! ### Registers, the call stack and the timers -/

/-- `x[r]` (00_scope.md R13). No register is hardwired (10_state.md R31). -/
def State.reg (s : State) (r : RegIdx) : Byte := s.x[r.val]

/-- `x[r] <- v` (00_scope.md R13). -/
def State.setReg (s : State) (r : RegIdx) (v : Byte) : State := { s with x := s.x.set r.val v }

/-- `I <- v`: the value is not checked (10_state.md R38). -/
def State.setI (s : State) (v : Word) : State := { s with I := v }

/-- `pc <- target` (00_scope.md R13): the target is not checked (41_flow.md R150). -/
def State.jump (s : State) (target : Word) : State := { s with pc := target }

/-- `pc <- pc + n`, for n = 2 or 4. Arithmetic on `pc` is modulo 65536 (10_state.md R44). -/
def State.advance (s : State) (n : Word) : State := { s with pc := s.pc + n }

/-- `dt <- v` -/
def State.setDt (s : State) (v : Byte) : State := { s with dt := v }

/-- `st <- v` -/
def State.setSt (s : State) (v : Byte) : State := { s with st := v }

/-- The state with another memory. -/
def State.setMem (s : State) (m : Memory) : State := { s with mem := m }

/-- A framebuffer mutator ran: the new pixels, `changed <- 1`, `fb_dirty <- 1` (44_display.md; 10_state.md R56). -/
def State.drawn (s : State) (fb : Framebuffer) : State :=
  { s with fb := fb, fbDirty := true, out := { s.out with changed := true } }

/-- The push of 2nnn (10_state.md R46): `stack[sp] <- v`, then `sp <- sp + 1`. Its caller has tested `sp < 16`. -/
def State.push (s : State) (v : Word) (h : s.sp.val < 16) : State :=
  { s with stack := s.stack.set s.sp.val v, sp := ⟨s.sp.val + 1, by omega⟩ }

/-- The entry a pop reads: `stack[sp - 1]` (10_state.md R46). Its caller has tested `sp > 0`. -/
def State.top (s : State) (h : 0 < s.sp.val) : Word :=
  s.stack[s.sp.val - 1]'(by omega)

/-- The pop of 00EE: `sp <- sp - 1`; the entry stays where it is (10_state.md R46, R48). -/
def State.pop (s : State) : State := { s with sp := ⟨s.sp.val - 1, by omega⟩ }

/-! ### The ports (40_step_cycle.md R132, R133) -/

/-- The key flags this step sees: what the host presents to it, else the stored copy (10_state.md R55; logs 2, 5). -/
def State.keyPort (s : State) : Keys :=
  match s.inputs with
  | [] => s.keys
  | i :: _ => i.keys.getD s.keys

/-- `key[k]` (00_scope.md R13). -/
def State.key (s : State) (k : Fin 16) : Bool := s.keyPort[k.val]

/-- `rnd` (40_step_cycle.md R133): what the host presents to this step, else a free value (logs 2, 3). -/
def State.rndPort (s : State) : Byte :=
  match s.inputs with
  | [] => Config.freeByte s.draws
  | i :: _ => i.rnd.getD (Config.freeByte s.draws)

/-- The step has used its inputs: the key flags it saw stay in the stored copy, the next step has the next inputs and
a fresh free byte (logs 2, 3, 5). -/
def State.consumeInputs (s : State) : State :=
  { s with keys := s.keyPort, inputs := s.inputs.tail, draws := s.draws + 1 }

/-! ### The halt (60_exceptions.md) -/

/-- `raise`: the step ends with status `halt`, the cause and its information. It saves nothing and transfers control
nowhere (R271), and no state changes (R262): the outcome holds no state. There is no return from a halt (R272). -/
def halt (cause : Fault) : Host.Outcome State Fault Refusal := .fault cause

/-- The code of each cause (R261; the numbers are the spec's choice D17, log 23). -/
def Fault.code : Fault → Nat
  | .fetchOutOfBounds _ => 1
  | .stackOverflow _ _ => 2
  | .stackUnderflow _ _ => 3
  | .dataOutOfBounds _ _ _ => 4
  | .keyIndexOutOfRange _ _ _ => 5

/-! ### The phases of a step around the instruction (40_step_cycle.md R130) -/

/-- Phase 1, the fetch check: `pc + 1 >= 4096`, without wrap (R130, 60_exceptions.md R263, C11). -/
def State.fetchBad (s : State) : Bool := decide (Config.memSize ≤ s.pc.toNat + 1)

/-- Phase 2, the fetch: `op = mem[pc] * 256 + mem[pc + 1]` (20_memory.md R73; log 6). -/
def State.fetchWord (s : State) : Word :=
  wordOfBytes (s.mem.byteAt s.pc.toNat) (s.mem.byteAt (s.pc.toNat + 1))

/-- Each output is 0 or absent unless the step sets it (40_step_cycle.md R131, 00_scope.md R13). -/
def State.beginStep (s : State) : State := { s with out := Outputs.none }

/-- A timer after a tick: one less, and 0 stays 0 (40_step_cycle.md R136). -/
def tickTimer (t : Byte) : Byte := if 0 < t then t - 1 else t

/-- Phase 6, the epilogue: both timers tick, and `tone` says whether `st` was exactly 1 (R136, R137). -/
def State.tick (s : State) : State :=
  { s with
    dt := tickTimer s.dt
    st := tickTimer s.st
    out := { s.out with tone := decide (s.st = 1) } }

/-- The end of a completed step: the epilogue, after which the step's inputs are used up. -/
def State.endStep (s : State) : State := s.tick.consumeInputs

/-- Phases 6 and 7: the epilogue runs in a completed step and not in one that halts (R130, R136, R139). -/
def finishStep : Host.Outcome State Fault Refusal → Host.Outcome State Fault Refusal
  | .next s => .next s.endStep
  | .fault f => .fault f
  | .refused r => .refused r

/-- The execute phase of a word that matches no row: `pc <- pc + 2` and the diagnostic, with the address the word was
fetched from (30_encoding.md R110, 60_exceptions.md R268; logs 25, 16). -/
def execUnrecognized (op : Word) (s : State) : Host.Outcome State Fault Refusal :=
  .next { s.advance 2 with out := { s.out with diag := some ⟨op, s.pc⟩ } }

end Sys2Proof.Machine
end

