-- ==== Sys2Proof/Machine/Operands.lean ====
section
/-! DEFINITION. Operand forms (30_encoding.md R103, 43_index_memory.md R207): immediates widened with zeros, the data
addressing mode through `I` with its bounds check, register ranges, key indices, and the two shapes of instruction that
use them: the guarded access and the skip. -/

namespace Sys2Proof.Machine

/-- `zext_16(NNN)` (R103). -/
def zextAddr (nnn : Addr) : Word := nnn.setWidth 16

/-- `zext_16(x[X])` (R103). -/
def zextByte (b : Byte) : Word := b.setWidth 16

/-- A condition as the 8-bit value 0 or 1 a flag register receives (10_state.md R36). -/
def flagByte (b : Bool) : Byte := if b then 1 else 0

/-- The `k` bytes from `I` upward do not all lie below 4096: `k > 0` and `I + k - 1 > 4095`, in unbounded arithmetic
(20_memory.md R74). -/
def State.dataBad (s : State) (k : Nat) : Bool := decide (0 < k ∧ 4095 < s.I.toNat + k - 1)

/-- The effective address of byte `i` of an access: `I + i`, unbounded (43_index_memory.md R207). -/
def State.dataAddr (s : State) (i : Nat) : Nat := s.I.toNat + i

/-- An access to `k` bytes through `I` by the instruction `i`: the bounds check first, before any change
(20_memory.md R74, 60_exceptions.md R266; the spec's choice D8, log 10). -/
def withData (i : Instr) (k : Nat) (s t : State) : Host.Outcome State Fault Refusal :=
  if s.dataBad k then halt (.dataOutOfBounds s.pc (encode i) s.I) else .next t

/-- V0 to VX, ascending (43_index_memory.md R204, R205): X is the number of the last register. -/
def regsUpTo (x : RegIdx) : List RegIdx := (List.finRange 16).take (x.val + 1)

/-- `pc <- pc + 4` if the condition holds, else `pc <- pc + 2` (41_flow.md R158). -/
def skipIf (cond : Bool) (s : State) : Host.Outcome State Fault Refusal :=
  .next (s.advance (if cond then 4 else 2))

/-- The keypad skips: the content of VX is the key index; above 15 the step halts, before `pc` is written
(45_keypad_timers.md R240, R241, 60_exceptions.md R267; the spec's choice D9, log 11). -/
def skipIfKey (i : Instr) (x : RegIdx) (pressed : Bool) (s : State) : Host.Outcome State Fault Refusal :=
  if h : (s.reg x).toNat < 16 then skipIf (s.key ⟨(s.reg x).toNat, h⟩ == pressed) s
  else halt (.keyIndexOutOfRange s.pc (encode i) (s.reg x))

/-- The least pressed key, if any (45_keypad_timers.md R242; lowest: the spec's choice D10, log 12). -/
def State.lowestKey (s : State) : Option (Fin 16) := (List.finRange 16).find? (fun k => s.key k)

end Sys2Proof.Machine
end

