-- ==== Sys2Proof/Machine/Flags.lean ====
section
/-! DEFINITION. Every value VF receives as a side effect of the 8xy_ instructions (10_state.md R36), and the order of
that write: the flag first, then the result, with the registers read again in between (00_scope.md R14). The collision
flag of Dxyn is in Display.lean, where the draw makes it. -/

namespace Sys2Proof.Machine

/-- 8xy4: "1 if x[Y] > 255 - x[X] else 0" (42_alu.md R176). -/
def carryFlag (vx vy : Byte) : Byte := flagByte (decide (255 - vx.toNat < vy.toNat))

/-- 8xy5 with (a, b) = (VX, VY) and 8xy7 with (a, b) = (VY, VX): NOT borrow of a - b, 0 if b > a, else 1
(42_alu.md R177, R179). -/
def noBorrowFlag (a b : Byte) : Byte := flagByte (!decide (a.toNat < b.toNat))

/-- 8xy6: the bit shifted out, bit 0 (42_alu.md R178). -/
def shrFlag (vx : Byte) : Byte := vx &&& 1

/-- 8xyE: the bit shifted out, bit 7, as 0 or 1 (42_alu.md R180). -/
def shlFlag (vx : Byte) : Byte := flagByte (vx.getLsbD 7)

/-- The shape of R176 to R180: `x[15] <- flag`, then `x[X] <- result`, where `result` reads the registers of the state
after the flag write; then `pc <- pc + 2`. Literal order: the spec's choice D12 (log 14), unsafe for X or Y = 0xF. -/
def flagThenResult (x : RegIdx) (flag : Byte) (result : State → Byte) (s : State) :
    Host.Outcome State Fault Refusal :=
  let s1 := s.setReg vF flag
  .next ((s1.setReg x (result s1)).advance 2)

end Sys2Proof.Machine
end

