-- ==== Sys2Proof/Machine/Alu.lean ====
section
/-! DEFINITION. Register load, ALU and random (42_alu.md). Arithmetic is unsigned 8-bit and wraps modulo 256 (R182). -/

namespace Sys2Proof.Machine

/-- `x[X] <- v`, then `pc <- pc + 2`: the shape of R170 to R175 and R181. -/
def loadReg (x : RegIdx) (v : Byte) (s : State) : Host.Outcome State Fault Refusal :=
  .next ((s.setReg x v).advance 2)

/-- `LD Vx, nn` (R170). -/
def execLdImm (x : RegIdx) (nn : Byte) (s : State) : Host.Outcome State Fault Refusal := loadReg x nn s

/-- `ADD Vx, nn` (R171): no carry is recorded. -/
def execAddImm (x : RegIdx) (nn : Byte) (s : State) : Host.Outcome State Fault Refusal := loadReg x (s.reg x + nn) s

/-- `LD Vx, Vy` (R172). -/
def execLdReg (x y : RegIdx) (s : State) : Host.Outcome State Fault Refusal := loadReg x (s.reg y) s

/-- `OR Vx, Vy` (R173): VF is not written as a side effect. -/
def execOrReg (x y : RegIdx) (s : State) : Host.Outcome State Fault Refusal := loadReg x (s.reg x ||| s.reg y) s

/-- `AND Vx, Vy` (R174): VF is not written as a side effect. -/
def execAndReg (x y : RegIdx) (s : State) : Host.Outcome State Fault Refusal := loadReg x (s.reg x &&& s.reg y) s

/-- `XOR Vx, Vy` (R175): VF is not written as a side effect. -/
def execXorReg (x y : RegIdx) (s : State) : Host.Outcome State Fault Refusal := loadReg x (s.reg x ^^^ s.reg y) s

/-- `ADD Vx, Vy` (R176). -/
def execAddReg (x y : RegIdx) (s : State) : Host.Outcome State Fault Refusal :=
  flagThenResult x (carryFlag (s.reg x) (s.reg y)) (fun t => t.reg x + t.reg y) s

/-- `SUB Vx, Vy` (R177). -/
def execSubReg (x y : RegIdx) (s : State) : Host.Outcome State Fault Refusal :=
  flagThenResult x (noBorrowFlag (s.reg x) (s.reg y)) (fun t => t.reg x - t.reg y) s

/-- `SHR Vx` (R178): VX is shifted in place and Y is ignored (R106; the spec's choice D7, log 20). -/
def execShr (x _y : RegIdx) (s : State) : Host.Outcome State Fault Refusal :=
  flagThenResult x (shrFlag (s.reg x)) (fun t => t.reg x >>> 1) s

/-- `SUBN Vx, Vy` (R179). -/
def execSubn (x y : RegIdx) (s : State) : Host.Outcome State Fault Refusal :=
  flagThenResult x (noBorrowFlag (s.reg y) (s.reg x)) (fun t => t.reg y - t.reg x) s

/-- `SHL Vx` (R180): VX is shifted in place and Y is ignored (R106; the spec's choice D7, log 20). -/
def execShl (x _y : RegIdx) (s : State) : Host.Outcome State Fault Refusal :=
  flagThenResult x (shlFlag (s.reg x)) (fun t => t.reg x <<< 1) s

/-- `RND Vx, nn` (R181): `rnd` is an input of the step (40_step_cycle.md R133). -/
def execRnd (x : RegIdx) (nn : Byte) (s : State) : Host.Outcome State Fault Refusal := loadReg x (s.rndPort &&& nn) s

end Sys2Proof.Machine
end

