-- ==== Sys2Proof/Machine/Display.lean ====
section
/-! DEFINITION. Display (44_display.md): clear, and XOR-draw with collision. -/

namespace Sys2Proof.Machine

/-- `CLS` (R220): `changed` and `fb_dirty` are raised on a clear screen too (the spec's choice D23, log 34). -/
def execCls (s : State) : Host.Outcome State Fault Refusal := .next ((s.drawn Framebuffer.clear).advance 2)

/-- What a draw works on: the framebuffer and the collision flag. -/
structure Canvas where
  fb : Framebuffer
  vf : Byte
  deriving DecidableEq, Repr

/-- The column of a pixel, reduced modulo 64 (R224; wrap: the spec's choice D4, log 8). -/
def pixelX (ox : Byte) (col : Nat) : Fin 64 := Fin.ofNat 64 (ox.toNat + col)

/-- The row of a pixel, reduced modulo 32 (R224; wrap: the spec's choice D4, log 8). -/
def pixelY (oy : Byte) (row : Nat) : Fin 32 := Fin.ofNat 32 (oy.toNat + row)

/-- Column `col` of a sprite row: bit 7 of the byte is column 0 (R223; PRESUMED by the spec, D3, log 7). -/
def spriteBit (b : Byte) (col : Nat) : Bool := b.getLsbD (7 - col)

/-- One pixel of the inner loop of R221: a set bit toggles its pixel, and a pixel that was set raises the flag. -/
def drawPixel (b ox oy : Byte) (row : Nat) (c : Canvas) (col : Nat) : Canvas :=
  if spriteBit b col then
    { fb := c.fb.toggle (pixelX ox col) (pixelY oy row)
      vf := if c.fb.pixel (pixelX ox col) (pixelY oy row) then 1 else c.vf }
  else c

/-- One row of the outer loop of R221: the byte is read, its 8 columns drawn. -/
def drawRow (m : Memory) (a : Nat) (ox oy : Byte) (c : Canvas) (row : Nat) : Canvas :=
  (List.range 8).foldl (drawPixel (m.byteAt (a + row)) ox oy row) c

/-- The loops of R221. -/
def drawSprite (m : Memory) (a : Nat) (ox oy : Byte) (n : Nat) (c : Canvas) : Canvas :=
  (List.range n).foldl (drawRow m a ox oy) c

/-- `DRW Vx, Vy, n` (R221): the bounds check, then VF cleared, then the origin read once, then the loops. The order of
the clear and the reads is the spec's choice D13 (log 15), unsafe for X or Y = 0xF. -/
def execDrw (x y : RegIdx) (n : Nibble) (s : State) : Host.Outcome State Fault Refusal :=
  let s1 := s.setReg vF 0
  let c := drawSprite s1.mem s1.I.toNat (s1.reg x) (s1.reg y) n.toNat ⟨s1.fb, s1.reg vF⟩
  withData (.drw x y n) n.toNat s (((s1.setReg vF c.vf).drawn c.fb).advance 2)

end Sys2Proof.Machine
end

