-- ==== Sys2Proof/Machine/Flow.lean ====
section
/-! DEFINITION. Control transfer (41_flow.md): jumps, call, return, compare-and-skip. `pc` holds the address of the
instruction itself (40_step_cycle.md R135). -/

namespace Sys2Proof.Machine

/-- `JP nnn` (R150). -/
def execJp (nnn : Addr) (s : State) : Host.Outcome State Fault Refusal := .next (s.jump (zextAddr nnn))

/-- `JP V0, nnn` (R152): the sum is not reduced modulo 4096. -/
def execJpV0 (nnn : Addr) (s : State) : Host.Outcome State Fault Refusal :=
  .next (s.jump (zextAddr nnn + zextByte (s.reg v0)))

/-- `CALL nnn` (R151): the address of this CALL is pushed (10_state.md R47). -/
def execCall (nnn : Addr) (s : State) : Host.Outcome State Fault Refusal :=
  if h : s.sp.val < 16 then .next ((s.push s.pc h).jump (zextAddr nnn))
  else halt (.stackOverflow s.pc (encode (.call nnn)))

/-- `RET` (R153): the popped entry is the CALL's own address, so 2 is added. -/
def execRet (s : State) : Host.Outcome State Fault Refusal :=
  if h : 0 < s.sp.val then .next (s.pop.jump (s.top h + 2))
  else halt (.stackUnderflow s.pc (encode .ret))

/-- `SE Vx, nn` (R154). -/
def execSeImm (x : RegIdx) (nn : Byte) (s : State) : Host.Outcome State Fault Refusal := skipIf (s.reg x == nn) s

/-- `SNE Vx, nn` (R155). -/
def execSneImm (x : RegIdx) (nn : Byte) (s : State) : Host.Outcome State Fault Refusal := skipIf (s.reg x != nn) s

/-- `SE Vx, Vy` (R156). -/
def execSeReg (x y : RegIdx) (s : State) : Host.Outcome State Fault Refusal := skipIf (s.reg x == s.reg y) s

/-- `SNE Vx, Vy` (R157). -/
def execSneReg (x y : RegIdx) (s : State) : Host.Outcome State Fault Refusal := skipIf (s.reg x != s.reg y) s

end Sys2Proof.Machine
end

