-- ==== Sys2Proof/Machine/IndexMemory.lean ====
section
/-! DEFINITION. Index register and memory (43_index_memory.md). None writes VF as a side effect, and no load or store
changes `I` (10_state.md R39). -/

namespace Sys2Proof.Machine

/-- `LD I, nnn` (R200). -/
def execLdI (nnn : Addr) (s : State) : Host.Outcome State Fault Refusal := .next ((s.setI (zextAddr nnn)).advance 2)

/-- `ADD I, Vx` (R201): modulo 65536, VF not written (wrap: the spec's D11, log 13). -/
def execAddI (x : RegIdx) (s : State) : Host.Outcome State Fault Refusal :=
  .next ((s.setI (s.I + zextByte (s.reg x))).advance 2)

/-- `LD F, Vx` (R202): VX is not masked. -/
def execLdF (x : RegIdx) (s : State) : Host.Outcome State Fault Refusal :=
  .next ((s.setI (zextByte (s.reg x) * 5)).advance 2)

/-- The three decimal digits of a byte, hundreds first, each a byte of its own (R203). -/
def bcdDigits (v : Byte) : List Byte :=
  [BitVec.ofNat 8 (v.toNat / 100), BitVec.ofNat 8 (v.toNat / 10 % 10), BitVec.ofNat 8 (v.toNat % 10)]

/-- `LD B, Vx` (R203). -/
def execLdB (x : RegIdx) (s : State) : Host.Outcome State Fault Refusal :=
  withData (.ldB x) 3 s ((s.setMem (s.mem.setList s.I.toNat (bcdDigits (s.reg x)))).advance 2)

/-- `MemWrite(I + i, 1, x[i])` for each register `i` of the list, in order (R204). -/
def storeRange (s : State) (rs : List RegIdx) : Memory :=
  rs.foldl (fun m i => m.set (s.dataAddr i.val) (s.reg i)) s.mem

/-- `LD [I], Vx` (R204). -/
def execStoreRegs (x : RegIdx) (s : State) : Host.Outcome State Fault Refusal :=
  withData (.storeRegs x) (x.val + 1) s ((s.setMem (storeRange s (regsUpTo x))).advance 2)

/-- `x[i] <- MemRead(I + i, 1)` for each register `i` of the list, in order (R205). -/
def loadRange (s : State) (rs : List RegIdx) : State :=
  rs.foldl (fun t i => t.setReg i (t.mem.byteAt (t.dataAddr i.val))) s

/-- `LD Vx, [I]` (R205). -/
def execLoadRegs (x : RegIdx) (s : State) : Host.Outcome State Fault Refusal :=
  withData (.loadRegs x) (x.val + 1) s ((loadRange s (regsUpTo x)).advance 2)

end Sys2Proof.Machine
end

