-- ==== Sys2Proof/Machine/KeypadTimers.lean ====
section
/-! DEFINITION. Keypad and timers (45_keypad_timers.md). The timers tick in the epilogue of the same step
(40_step_cycle.md R138), which is not part of these meanings. -/

namespace Sys2Proof.Machine

/-- `SKP Vx` (R240). -/
def execSkp (x : RegIdx) (s : State) : Host.Outcome State Fault Refusal := skipIfKey (.skp x) x true s

/-- `SKNP Vx` (R241). -/
def execSknp (x : RegIdx) (s : State) : Host.Outcome State Fault Refusal := skipIfKey (.sknp x) x false s

/-- `LD Vx, K` (R242): with no key pressed nothing is written, `pc` included, and the step is complete. -/
def execLdVxK (x : RegIdx) (s : State) : Host.Outcome State Fault Refusal :=
  match s.lowestKey with
  | none => .next s
  | some k => loadReg x (BitVec.ofNat 8 k.val) s

/-- `LD Vx, DT` (R243). -/
def execLdVxDt (x : RegIdx) (s : State) : Host.Outcome State Fault Refusal := loadReg x s.dt s

/-- `LD DT, Vx` (R244): VX itself, not VX + 1 (the spec's choice D6, C3, log 19). -/
def execLdDtVx (x : RegIdx) (s : State) : Host.Outcome State Fault Refusal := .next ((s.setDt (s.reg x)).advance 2)

/-- `LD ST, Vx` (R245): VX itself, not VX + 1 (the spec's choice D6, C3, log 19). -/
def execLdStVx (x : RegIdx) (s : State) : Host.Outcome State Fault Refusal := .next ((s.setSt (s.reg x)).advance 2)

end Sys2Proof.Machine
end

