-- ==== Sys2Proof/Machine/Step.lean ====
section
/-! DEFINITION. The step (40_step_cycle.md R130), over the operations of Ops.lean and the dispatch. -/

namespace Sys2Proof.Machine

/-- What a decoded word does in the execute phase: its instruction, or the behaviour of an unrecognized word. -/
def execDecoded (d : Decoded) (s : State) : Host.Outcome State Fault Refusal :=
  match d with
  | .instr i => exec i s
  | .unrecognized op => execUnrecognized op s

/-- `step` (R130): fetch check, fetch, decode, dispatch and execute, epilogue, return. -/
def step (s : State) : Host.Outcome State Fault Refusal :=
  if s.fetchBad then halt (.fetchOutOfBounds s.pc)
  else finishStep (execDecoded (decodeWord s.fetchWord) s.beginStep)

/-- The state with the word `w` stored where `step` fetches next: its high byte at `pc` (20_memory.md R73; log 26). Where
no word can be fetched at `pc` (60_exceptions.md R263), `pc` becomes PROG_BASE (log 28). -/
def State.withFetchWord (s : State) (nbits w : Nat) : State :=
  let op : Word := BitVec.ofNat 16 (w % 2 ^ nbits)
  let pc : Word := if s.fetchBad then 0x200 else s.pc
  { s with pc := pc, mem := (s.mem.set pc.toNat (highByte op)).set (pc.toNat + 1) (lowByte op) }

end Sys2Proof.Machine
end

