-- ==== Sys2Proof/Machine/Assembler.lean ====
section
/-! DEFINITION. The assembler syntax of 30_encoding.md R106, R115, R116, on abstract source (log 32): no step depends on
it. Each instruction line becomes exactly one word; there are no pseudo-instructions (R116). -/

namespace Sys2Proof.Machine

/-- The register a digit names. -/
def asmReg (n : Nat) : RegIdx := Fin.ofNat 16 n

/-- The instruction a mnemonic and its operands stand for, whatever the sizes of the numbers (R105, R106). `SHL` as `SHR`, Y = 0
where no second register is written: DESIGN CHOICE (log 38), safe. -/
def operandsInstr : Mnem → List Operand → Option Instr
  | .CLS, [] => some .cls
  | .RET, [] => some .ret
  | .JP, [.num a] => some (.jp (BitVec.ofNat 12 a))
  | .JP, [.v _, .num a] => some (.jpV0 (BitVec.ofNat 12 a))
  | .CALL, [.num a] => some (.call (BitVec.ofNat 12 a))
  | .SE, [.v x, .num n] => some (.seImm (asmReg x) (BitVec.ofNat 8 n))
  | .SE, [.v x, .v y] => some (.seReg (asmReg x) (asmReg y))
  | .SNE, [.v x, .num n] => some (.sneImm (asmReg x) (BitVec.ofNat 8 n))
  | .SNE, [.v x, .v y] => some (.sneReg (asmReg x) (asmReg y))
  | .LD, [.v x, .num n] => some (.ldImm (asmReg x) (BitVec.ofNat 8 n))
  | .LD, [.v x, .v y] => some (.ldReg (asmReg x) (asmReg y))
  | .LD, [.I, .num a] => some (.ldI (BitVec.ofNat 12 a))
  | .LD, [.v x, .DT] => some (.ldVxDt (asmReg x))
  | .LD, [.v x, .K] => some (.ldVxK (asmReg x))
  | .LD, [.DT, .v x] => some (.ldDtVx (asmReg x))
  | .LD, [.ST, .v x] => some (.ldStVx (asmReg x))
  | .LD, [.F, .v x] => some (.ldF (asmReg x))
  | .LD, [.B, .v x] => some (.ldB (asmReg x))
  | .LD, [.memI, .v x] => some (.storeRegs (asmReg x))
  | .LD, [.v x, .memI] => some (.loadRegs (asmReg x))
  | .ADD, [.v x, .num n] => some (.addImm (asmReg x) (BitVec.ofNat 8 n))
  | .ADD, [.v x, .v y] => some (.addReg (asmReg x) (asmReg y))
  | .ADD, [.I, .v x] => some (.addI (asmReg x))
  | .OR, [.v x, .v y] => some (.orReg (asmReg x) (asmReg y))
  | .AND, [.v x, .v y] => some (.andReg (asmReg x) (asmReg y))
  | .XOR, [.v x, .v y] => some (.xorReg (asmReg x) (asmReg y))
  | .SUB, [.v x, .v y] => some (.subReg (asmReg x) (asmReg y))
  | .SHR, [.v x] => some (.shr (asmReg x) 0)
  | .SHR, [.v x, .v y] => some (.shr (asmReg x) (asmReg y))
  | .SUBN, [.v x, .v y] => some (.subn (asmReg x) (asmReg y))
  | .SHL, [.v x] => some (.shl (asmReg x) 0)
  | .SHL, [.v x, .v y] => some (.shl (asmReg x) (asmReg y))
  | .RND, [.v x, .num n] => some (.rnd (asmReg x) (BitVec.ofNat 8 n))
  | .DRW, [.v x, .v y, .num n] => some (.drw (asmReg x) (asmReg y) (BitVec.ofNat 4 n))
  | .SKP, [.v x] => some (.skp (asmReg x))
  | .SKNP, [.v x] => some (.sknp (asmReg x))
  | _, _ => none

/-- One instruction line: refused (none) unless its operands are of a form the table has and fit their fields. -/
def asmInstr (m : Mnem) (ops : List Operand) : Option Instr :=
  if operandsWf m ops then operandsInstr m ops else none

/-- Every way the row of an instruction is written, from the mnemonic column of R105; `SHR` and `SHL` with Y = 0 also
without their second register (R106 for `SHR`; `SHL` alike is a DESIGN CHOICE, log 38). No assembling reads this table: it is what a line must be to stand for `i`. -/
def sourceForms : Instr → List (Mnem × List Operand)
  | .cls => [(.CLS, [])]
  | .ret => [(.RET, [])]
  | .jp nnn => [(.JP, [.num nnn.toNat])]
  | .call nnn => [(.CALL, [.num nnn.toNat])]
  | .seImm x nn => [(.SE, [.v x.val, .num nn.toNat])]
  | .sneImm x nn => [(.SNE, [.v x.val, .num nn.toNat])]
  | .seReg x y => [(.SE, [.v x.val, .v y.val])]
  | .ldImm x nn => [(.LD, [.v x.val, .num nn.toNat])]
  | .addImm x nn => [(.ADD, [.v x.val, .num nn.toNat])]
  | .ldReg x y => [(.LD, [.v x.val, .v y.val])]
  | .orReg x y => [(.OR, [.v x.val, .v y.val])]
  | .andReg x y => [(.AND, [.v x.val, .v y.val])]
  | .xorReg x y => [(.XOR, [.v x.val, .v y.val])]
  | .addReg x y => [(.ADD, [.v x.val, .v y.val])]
  | .subReg x y => [(.SUB, [.v x.val, .v y.val])]
  | .shr x y => (.SHR, [.v x.val, .v y.val]) :: if y = 0 then [(.SHR, [.v x.val])] else []
  | .subn x y => [(.SUBN, [.v x.val, .v y.val])]
  | .shl x y => (.SHL, [.v x.val, .v y.val]) :: if y = 0 then [(.SHL, [.v x.val])] else []
  | .sneReg x y => [(.SNE, [.v x.val, .v y.val])]
  | .ldI nnn => [(.LD, [.I, .num nnn.toNat])]
  | .jpV0 nnn => [(.JP, [.v 0, .num nnn.toNat])]
  | .rnd x nn => [(.RND, [.v x.val, .num nn.toNat])]
  | .drw x y n => [(.DRW, [.v x.val, .v y.val, .num n.toNat])]
  | .skp x => [(.SKP, [.v x.val])]
  | .sknp x => [(.SKNP, [.v x.val])]
  | .ldVxDt x => [(.LD, [.v x.val, .DT])]
  | .ldVxK x => [(.LD, [.v x.val, .K])]
  | .ldDtVx x => [(.LD, [.DT, .v x.val])]
  | .ldStVx x => [(.LD, [.ST, .v x.val])]
  | .addI x => [(.ADD, [.I, .v x.val])]
  | .ldF x => [(.LD, [.F, .v x.val])]
  | .ldB x => [(.LD, [.B, .v x.val])]
  | .storeRegs x => [(.LD, [.memI, .v x.val])]
  | .loadRegs x => [(.LD, [.v x.val, .memI])]

/-- A label as the number it stands for, where the program defines it (R115). DESIGN CHOICE (log 37), safe: a name the
program defines twice stands for its first definition, and one it does not define stays, so that its line is refused. -/
def resolveOperand (labels : List (Nat × Nat)) : Operand → Operand
  | .lab l => match labels.lookup l with
    | some a => .num a
    | none => .lab l
  | o => o

/-- The bytes of one item, words high byte first (R115, R116); none where the item is ill formed. -/
def itemBytes (labels : List (Nat × Nat)) : AsmItem → Option (List Byte)
  | .instr m ops => (asmInstr m (ops.map (resolveOperand labels))).map encodeBytes
  | .db bytes => if (AsmItem.db bytes).wf then some (bytes.map (BitVec.ofNat 8)) else none
  | .dw w => if (AsmItem.dw w).wf then some [highByte (BitVec.ofNat 16 w), lowByte (BitVec.ofNat 16 w)] else none
  | .label _ => some []

/-- How many bytes an item takes (R115, R116). -/
def AsmItem.size : AsmItem → Nat
  | .instr _ _ => 2
  | .db bytes => bytes.length
  | .dw _ => 2
  | .label _ => 0

/-- Each label with "the address of the next byte placed" (R115). -/
def labelTable (a : Nat) : List AsmItem → List (Nat × Nat)
  | [] => []
  | .label l :: rest => (l, a) :: labelTable a rest
  | i :: rest => labelTable (a + AsmItem.size i) rest

/-- The bytes of a list of items; none where one is ill formed. -/
def itemsBytes (labels : List (Nat × Nat)) : List AsmItem → Option (List Byte)
  | [] => some []
  | i :: rest =>
    match itemBytes labels i, itemsBytes labels rest with
    | some b, some bs => some (b ++ bs)
    | _, _ => none

/-- "Programs are assembled from address 0x200" (R115). -/
def assemble (items : List AsmItem) : Option (List Byte) := itemsBytes (labelTable Config.progBase items) items

end Sys2Proof.Machine
end

