-- ==== Sys2Proof/Machine/HostPort.lean ====
section
/-! DEFINITION. The host's moves (70_reset_and_hazards.md R300, R306, R308), each a function of the state between two
steps; its other move is `step` itself. The host has no other write access (R308). -/

namespace Sys2Proof.Machine

/-- The state after reset with FONT as an argument (00_scope.md R10, 20_memory.md R76, 70_reset_and_hazards.md R301). That it is
an argument of the reset: DESIGN CHOICE (log 39), safe. -/
def State.resetWith (font : Vector Byte Config.fontLen) : State :=
  { State.reset with mem := Memory.setList [] 0 font.toList }

/-- The move `reset` (R300): it writes every piece of the core's state and depends on none of it. What the host will
present to the coming steps is the host's, not the core's, and stays (logs 2, 3). -/
def hostReset (font : Vector Byte Config.fontLen) (s : State) : State :=
  { State.resetWith font with inputs := s.inputs, draws := s.draws }

/-- The move `load` (R306): byte `j` goes to `mem[0x200 + j]`, nothing else changes. A sequence of more than 3584 bytes is
rejected whole (none): no byte is written (the spec's D21, log 22). -/
def hostLoad (bytes : List Byte) (s : State) : Option State :=
  if bytes.length ≤ Config.maxProgLen then some (s.setMem (s.mem.setList Config.progBase bytes)) else none

/-- What the host presents to the next step, changed. -/
def presentNext (f : StepInput → StepInput) : List StepInput → List StepInput
  | [] => [f ⟨none, none⟩]
  | i :: rest => f i :: rest

/-- The move `set keys` (R308): the flags go into the stored copy (10_state.md R55), where the next step sees them. -/
def hostSetKeys (keys : Keys) (s : State) : State :=
  { s with keys := keys, inputs := presentNext (fun i => { i with keys := none }) s.inputs }

/-- The move `supply rnd` (R308): one byte, read by Cxnn in the next step. -/
def hostSupplyRnd (b : Byte) (s : State) : State :=
  { s with inputs := presentNext (fun i => { i with rnd := some b }) s.inputs }

/-- The move `read framebuffer` (R308). -/
def hostReadPixel (px : Fin 64) (py : Fin 32) (s : State) : Bool := s.fb.pixel px py

/-- The move `read-and-clear dirty` (R308): the flag, and the state in which it is 0. -/
def hostReadClearDirty (s : State) : Bool × State := (s.fbDirty, { s with fbDirty := false })

/-- The moves of R308 that change something, as data. Each reset names its own FONT, so that two resets of one run may use two
tables: DESIGN CHOICE (log 39), safe, since the spec makes FONT a parameter and says not at which level. -/
inductive HostMove where
  | reset (font : Vector Byte Config.fontLen)
  | load (bytes : List Byte)
  | setKeys (keys : Keys)
  | supplyRnd (b : Byte)
  | readClearDirty
  deriving DecidableEq, Repr

/-- The state after a host move. A rejected load leaves the state as it was (R306). -/
def State.hostMove (m : HostMove) (s : State) : State :=
  match m with
  | .reset font => hostReset font s
  | .load bytes => (hostLoad bytes s).getD s
  | .setKeys keys => hostSetKeys keys s
  | .supplyRnd b => hostSupplyRnd b s
  | .readClearDirty => (hostReadClearDirty s).2

end Sys2Proof.Machine
end

