-- ==== Sys2Proof/Safety.lean ====
section
/-! DEFINITION. The terms claims use: the parts of the state and frames over them, the invariant, what can be reached,
a safe run, and the end of a run. -/

namespace Sys2Proof.Machine

/-- Every part of the state, as finely as the spec reads it: one register, one stack entry, one byte of memory, one pixel,
one output. -/
inductive Part where
  | reg (r : RegIdx)
  | I
  | pc
  | sp
  | entry (k : Fin 16)
  | dt
  | st
  | byte (a : Nat)
  | pixel (px : Fin 64) (py : Fin 32)
  | dirty
  | keys
  | inputs
  | draws
  | changed
  | tone
  | diag
  deriving DecidableEq, Repr

/-- The part reads the same in both states. -/
def State.Same (s t : State) : Part → Prop
  | .reg r => t.reg r = s.reg r
  | .I => t.I = s.I
  | .pc => t.pc = s.pc
  | .sp => t.sp = s.sp
  | .entry k => t.stack[k.val] = s.stack[k.val]
  | .dt => t.dt = s.dt
  | .st => t.st = s.st
  | .byte a => t.mem.byteAt a = s.mem.byteAt a
  | .pixel px py => t.fb.pixel px py = s.fb.pixel px py
  | .dirty => t.fbDirty = s.fbDirty
  | .keys => t.keys = s.keys
  | .inputs => t.inputs = s.inputs
  | .draws => t.draws = s.draws
  | .changed => t.out.changed = s.out.changed
  | .tone => t.out.tone = s.out.tone
  | .diag => t.out.diag = s.out.diag

/-- The frame: every part of the state outside `touched` reads in `t` as it did in `s`. -/
def State.Frame (touched : Part → Prop) (s t : State) : Prop := ∀ p, ¬ touched p → s.Same t p

/-- What every reachable state meets: memory is in its canonical form; `pc` is at most 0x10FE, "the largest value any rule
can produce" (10_state.md R44); every stack entry is at most 4094, the highest address an instruction can be fetched
from (41_flow.md R153). -/
def State.Inv (s : State) : Prop :=
  s.mem.wf = true ∧ s.pc.toNat ≤ 0x10FE ∧ ∀ k : Fin 16, s.stack[k.val].toNat ≤ 4094

/-- The states of a run: a reset with any FONT, then steps and host moves in any order (70_reset_and_hazards.md R303,
R308), with any inputs planned for the coming steps. -/
inductive State.Reachable : State → Prop where
  | reset (font : Vector Byte Config.fontLen) (inputs : List StepInput) :
      State.Reachable { State.resetWith font with inputs := inputs }
  | step {s t : State} : State.Reachable s → step s = .next t → State.Reachable t
  | host {s : State} (m : HostMove) : State.Reachable s → State.Reachable (s.hostMove m)

/-- A safe run of `k` steps: none of them halts. -/
def State.RunsFor (s : State) (k : Nat) : Prop := ∃ t, Sys2Proof.core.run k s = .next t

/-- The end of a run, the model's own definition, the one R309 gives as an example: `pc` holds the address of a `JP` whose
target is that address. DESIGN CHOICE (log 36), safe: no step depends on it. -/
def State.Spins (s : State) : Prop :=
  s.fetchBad = false ∧ ∃ nnn, decodeWord s.fetchWord = .instr (.jp nnn) ∧ zextAddr nnn = s.pc

end Sys2Proof.Machine
end

