-- ==== Sys2Proof/Certificates/Slice0/Obligations.lean ====
section
/-! DEFINITION. The statements for the provers, from the numbered rules of spec/. A statement about an instruction's own
effect has as its conclusion that exec answers a next state, with what that state holds and a frame (`State.Frame`): every
part of the state outside the parts named reads as before, each register, stack entry, byte of memory and pixel by itself. -/

open Sys2Proof Sys2Proof.Machine

/-! ### Encoding -/

/-- Decoding the word or the bytes of any instruction gives the instruction back, with every operand, and leaves the
bytes after it (30_encoding.md R100, R104, R105; byte order: the spec's D1, log 6). -/
def Obligations.DecodeEncodeRoundTrip : Prop :=
  ∀ i : Instr, decodeWord (encode i) = .instr i ∧
    ∀ rest, decodeBytes (encodeBytes i ++ rest) = .word (.instr i) rest

/-- Each recognized word has one meaning and it is the word of that meaning: no bit is dropped, the ignored Y of the
shifts included (R105, R106). That every fixed nibble is checked is the spec's choice D14 (log 16). -/
def Obligations.EncodeDecodeRoundTrip : Prop :=
  ∀ (op : Word) (i : Instr), decodeWord op = .instr i → encode i = op

/-- The encoding of every instruction as a number, row by row, as the instruction's own rule gives it (R150 to R157, R170
to R181, R200 to R205, R220, R221, R240 to R245: "`0x3000 | X<<8 | NN`"). -/
def Obligations.EncodingOfEveryRow : Prop :=
  ∀ i : Instr, (encode i).toNat =
    match i with
    | .cls => 0x00E0
    | .ret => 0x00EE
    | .jp nnn => 0x1000 + nnn.toNat
    | .call nnn => 0x2000 + nnn.toNat
    | .seImm x nn => 0x3000 + x.val * 256 + nn.toNat
    | .sneImm x nn => 0x4000 + x.val * 256 + nn.toNat
    | .seReg x y => 0x5000 + x.val * 256 + y.val * 16
    | .ldImm x nn => 0x6000 + x.val * 256 + nn.toNat
    | .addImm x nn => 0x7000 + x.val * 256 + nn.toNat
    | .ldReg x y => 0x8000 + x.val * 256 + y.val * 16
    | .orReg x y => 0x8001 + x.val * 256 + y.val * 16
    | .andReg x y => 0x8002 + x.val * 256 + y.val * 16
    | .xorReg x y => 0x8003 + x.val * 256 + y.val * 16
    | .addReg x y => 0x8004 + x.val * 256 + y.val * 16
    | .subReg x y => 0x8005 + x.val * 256 + y.val * 16
    | .shr x y => 0x8006 + x.val * 256 + y.val * 16
    | .subn x y => 0x8007 + x.val * 256 + y.val * 16
    | .shl x y => 0x800E + x.val * 256 + y.val * 16
    | .sneReg x y => 0x9000 + x.val * 256 + y.val * 16
    | .ldI nnn => 0xA000 + nnn.toNat
    | .jpV0 nnn => 0xB000 + nnn.toNat
    | .rnd x nn => 0xC000 + x.val * 256 + nn.toNat
    | .drw x y n => 0xD000 + x.val * 256 + y.val * 16 + n.toNat
    | .skp x => 0xE09E + x.val * 256
    | .sknp x => 0xE0A1 + x.val * 256
    | .ldVxDt x => 0xF007 + x.val * 256
    | .ldVxK x => 0xF00A + x.val * 256
    | .ldDtVx x => 0xF015 + x.val * 256
    | .ldStVx x => 0xF018 + x.val * 256
    | .addI x => 0xF01E + x.val * 256
    | .ldF x => 0xF029 + x.val * 256
    | .ldB x => 0xF033 + x.val * 256
    | .storeRegs x => 0xF055 + x.val * 256
    | .loadRegs x => 0xF065 + x.val * 256

/-- The decode procedure of R104 and the table of R105 agree on every word: at most one row is selected, an instruction
is decoded iff its row is selected, and a word is unrecognized iff no row is. Strict
matching is the spec's choice D14 (log 16). -/
def Obligations.DecodeAgreesWithOpcodeTable : Prop :=
  ∀ op : Word,
    (∀ (m n : Nat) (r q : Row), opcodeRows[m]? = some r → opcodeRows[n]? = some q → r.selectedBy op = true → q.selectedBy op = true →
      m = n) ∧
    (∀ i, decodeWord op = .instr i → ∃ r, opcodeRows[rowNumber i - 1]? = some r ∧ r.selectedBy op = true) ∧
    (∀ (n : Nat) (r : Row), opcodeRows[n]? = some r → r.selectedBy op = true → ∃ i, decodeWord op = .instr i ∧ rowNumber i = n + 1) ∧
    ((∃ w, decodeWord op = .unrecognized w) ↔ ∀ r ∈ opcodeRows, r.selectedBy op = false)

/-- The unrecognized words, exhaustively, by group (R111), each rejected under its own name. Strict matching of the fixed
nibbles is the spec's choice D14 (log 16). -/
def Obligations.UnrecognizedWordsExactly : Prop :=
  ∀ op : Word,
    (∀ w, decodeWord op = .unrecognized w → w = op) ∧
    (decodeWord op = .unrecognized op ↔
      (op.toNat / 4096 = 0x0 ∧ op.toNat ≠ 0x00E0 ∧ op.toNat ≠ 0x00EE) ∨
      (op.toNat / 4096 = 0x5 ∧ op.toNat % 16 ≠ 0) ∨
      (op.toNat / 4096 = 0x8 ∧ op.toNat % 16 ∈ [8, 9, 0xA, 0xB, 0xC, 0xD, 0xF]) ∨
      (op.toNat / 4096 = 0x9 ∧ op.toNat % 16 ≠ 0) ∨
      (op.toNat / 4096 = 0xE ∧ op.toNat % 256 ∉ [0x9E, 0xA1]) ∨
      (op.toNat / 4096 = 0xF ∧ op.toNat % 256 ∉ [0x07, 0x0A, 0x15, 0x18, 0x1E, 0x29, 0x33, 0x55, 0x65]))

/-- Nine words of the spec's examples and vectors, one or more of each format, decode to the instruction they stand for
(41_flow.md to 45_keypad_timers.md, 95_test_vectors.md). The tenth, 0x5121 of vector E3, is unrecognized, since the
fixed nibble of 5xy0 is checked: the spec's choice D14 (log 16). -/
def Obligations.ExampleWordsDecode : Prop :=
  decodeWord 0x00E0 = .instr .cls ∧ decodeWord 0x1234 = .instr (.jp 0x234) ∧
  decodeWord 0x2345 = .instr (.call 0x345) ∧ decodeWord 0x35DC = .instr (.seImm 5 0xDC) ∧
  decodeWord 0x8874 = .instr (.addReg 8 7) ∧ decodeWord 0x82F6 = .instr (.shr 2 15) ∧
  decodeWord 0xD122 = .instr (.drw 1 2 2) ∧ decodeWord 0xE3A1 = .instr (.sknp 3) ∧
  decodeWord 0xF455 = .instr (.storeRegs 4) ∧ decodeWord 0x5121 = .unrecognized 0x5121

/-- A line assembles to an instruction iff it is one of the ways the table writes that instruction, and it is well formed
iff there is one. With the labels among its operands replaced by the numbers they stand for, that instruction's two
bytes are all that the line places; any other line, one with an undefined label too, is refused. A label stands for
the address of the next byte placed, counted by what the items before it place (R105, R106, R115, R116; the mnemonics
are the spec's D22, log 32; both forms of `SHL` are the model's choice, log 38; a label defined twice or not at all is
the model's choice, log 37). -/
def Obligations.WellFormedLineAssemblesToOneWord : Prop :=
  (∀ (m : Mnem) (ops : List Operand),
    (∀ i, asmInstr m ops = some i ↔ (m, ops) ∈ sourceForms i) ∧
    (operandsWf m ops = true ↔ ∃ i, (m, ops) ∈ sourceForms i)) ∧
  (∀ (labels : List (Nat × Nat)) (m : Mnem) (written ops : List Operand),
    List.Forall₂ (fun w o => (w = o ∧ ∀ l, w ≠ .lab l) ∨
      ∃ l a, w = .lab l ∧ labels.lookup l = some a ∧ o = .num a) written ops →
    ∀ b, itemBytes labels (.instr m written) = some b ↔ ∃ i, (m, ops) ∈ sourceForms i ∧ b = encodeBytes i) ∧
  (∀ (labels : List (Nat × Nat)) (m : Mnem) (written : List Operand) (l : Nat),
    .lab l ∈ written → labels.lookup l = none → itemBytes labels (.instr m written) = none) ∧
  (∀ (a l : Nat) (before after : List AsmItem), .label l ∉ before →
    (labelTable a (before ++ .label l :: after)).lookup l = some (a + (before.map AsmItem.size).sum)) ∧
  (∀ (labels : List (Nat × Nat)) (item : AsmItem) (b : List Byte),
    itemBytes labels item = some b → b.length = AsmItem.size item)

/-! ### The step -/

/-- When the two bytes at `pc` decode to an instruction, the step is that instruction's exec at the state with the outputs
cleared, followed by the epilogue and the end of the inputs when it completes, and its halt when it halts
(40_step_cycle.md R130; the fields `out`, `inputs`, `draws` are the model's, logs 2 to 4). -/
def Obligations.StepRunsTheDecodedInstruction : Prop :=
  ∀ (s : State) (i : Instr), s.pc.toNat + 1 < 4096 →
    decodeBytes [s.mem.byteAt s.pc.toNat, s.mem.byteAt (s.pc.toNat + 1)] = .word (.instr i) [] →
    (∀ t, exec i { s with out := Outputs.none } = .next t → step s = .next t.tick.consumeInputs) ∧
    (∀ f, exec i { s with out := Outputs.none } = .fault f → step s = .fault f)

/-- The epilogue of every completed step, an unrecognized word's too: both timers fall by one unless 0, `tone` iff `st`
was exactly 1, and nothing else of the core changes; a step that halts has none (R136, R137). -/
def Obligations.EpilogueTicksBothTimers : Prop :=
  ∀ s : State, s.pc.toNat + 1 < 4096 →
    (∀ u, execDecoded (decodeWord s.fetchWord) s.beginStep = .next u →
      ∃ t, step s = .next t ∧
        t.dt.toNat = u.dt.toNat - 1 ∧ t.st.toNat = u.st.toNat - 1 ∧
        (t.out.tone = true ↔ u.st.toNat = 1) ∧
        State.Frame (· ∈ [.dt, .st, .tone, .keys, .inputs, .draws]) u t) ∧
    (∀ f, execDecoded (decodeWord s.fetchWord) s.beginStep = .fault f → step s = .fault f)

/-- A completed step uses up what the host presented to it: the key flags it saw stay in the stored copy, the next step
has the next inputs and a fresh free byte. The model's own form of R55, R132 and R133 (logs 2, 3, 5). -/
def Obligations.CompletedStepConsumesItsInputs : Prop :=
  ∀ s t : State, step s = .next t →
    t.inputs = s.inputs.tail ∧ t.keys = s.keyPort ∧ t.draws = s.draws + 1

/-- The step that fetches an unrecognized word advances `pc` by 2, raises the diagnostic with the word and its address,
runs the epilogue, and changes nothing else of the core (30_encoding.md R110). What the diagnostic holds is the spec's
choice D25 (60_exceptions.md R268, log 25). -/
def Obligations.UnrecognizedWordIsNoOpWithDiagnostic : Prop :=
  ∀ (s : State) (op : Word), s.pc.toNat + 1 < 4096 → decodeWord s.fetchWord = .unrecognized op →
    ∃ t, step s = .next t ∧ t.pc = s.pc + 2 ∧ op = s.fetchWord ∧ t.out.diag = some ⟨s.fetchWord, s.pc⟩ ∧
      t.out.changed = false ∧ (t.out.tone = true ↔ s.st.toNat = 1) ∧
      t.dt.toNat = s.dt.toNat - 1 ∧ t.st.toNat = s.st.toNat - 1 ∧
      State.Frame (· ∈ [.pc, .dt, .st, .changed, .tone, .diag, .keys, .inputs, .draws]) s t

/-- A step halts with FetchOutOfBounds iff `pc + 1 ≥ 4096`, and the cause records that `pc`; so `pc = 4094` is legal and
`pc = 4095` is not (60_exceptions.md R263). That the cause records the `pc` is the spec's choice D17 (R261, log 23). -/
def Obligations.FetchHaltsExactlyPastTheEnd : Prop :=
  ∀ s : State,
    (4096 ≤ s.pc.toNat + 1 → step s = .fault (.fetchOutOfBounds s.pc)) ∧
    (s.pc.toNat + 1 < 4096 → ∀ a, step s ≠ .fault (.fetchOutOfBounds a))

/-- The halts of the execute phase, exactly: which instruction raises which cause, when, and with what information
(R261, R264 to R267; the spec's choices D5, D8, D9, D17, logs 9, 10, 11, 23). No other instruction and no other condition
halts. -/
def Obligations.InstructionHaltsExactlyByTable : Prop :=
  ∀ (i : Instr) (s : State) (f : Fault), exec i s = .fault f ↔
    (∃ nnn, i = .call nnn ∧ s.sp.val = 16 ∧ f = .stackOverflow s.pc (encode i)) ∨
    (i = .ret ∧ s.sp.val = 0 ∧ f = .stackUnderflow s.pc (encode i)) ∨
    (∃ x y n, i = .drw x y n ∧ 0 < n.toNat ∧ 4095 < s.I.toNat + n.toNat - 1 ∧
      f = .dataOutOfBounds s.pc (encode i) s.I) ∨
    (∃ x, i = .ldB x ∧ 4095 < s.I.toNat + 2 ∧ f = .dataOutOfBounds s.pc (encode i) s.I) ∨
    (∃ x, i = .storeRegs x ∧ 4095 < s.I.toNat + x.val ∧ f = .dataOutOfBounds s.pc (encode i) s.I) ∨
    (∃ x, i = .loadRegs x ∧ 4095 < s.I.toNat + x.val ∧ f = .dataOutOfBounds s.pc (encode i) s.I) ∨
    (∃ x, (i = .skp x ∨ i = .sknp x) ∧ 15 < (s.reg x).toNat ∧ f = .keyIndexOutOfRange s.pc (encode i) (s.reg x))

/-- Every step completes or halts with one of the five causes: none is refused (R260, R112). -/
def Obligations.NoStepIsRefused : Prop :=
  ∀ (s : State) (r : Refusal), step s ≠ .refused r

/-- Whether and how a step halts depends on the state of the core alone, never on what the host presents to it (R140; no
latch: the spec's D24, log 23). -/
def Obligations.HaltDoesNotDependOnInputs : Prop :=
  ∀ (s : State) (k : Keys) (q : List StepInput) (d : Nat) (f : Fault),
    (step s = .fault f ↔ step { s with keys := k, inputs := q, draws := d } = .fault f)

/-- Only Ex9E, ExA1 and Fx0A look at the keys and only Cxnn at the random byte: with other inputs a completed step has the
same effect on the core, provided that a step of Ex9E, ExA1 or Fx0A sees the same keys and one of Cxnn the same random
byte. So Cxnn ignores the keys, the three key instructions the random byte, and every other word both (R132, R133; the
spec's D20, log 3). -/
def Obligations.OtherWordsIgnoreTheInputs : Prop :=
  ∀ (s t : State) (k : Keys) (q : List StepInput) (d : Nat),
    (∀ x, decodeWord s.fetchWord = .instr (.skp x) ∨ decodeWord s.fetchWord = .instr (.sknp x) ∨
      decodeWord s.fetchWord = .instr (.ldVxK x) →
      State.keyPort { s with keys := k, inputs := q, draws := d } = s.keyPort) →
    (∀ x nn, decodeWord s.fetchWord = .instr (.rnd x nn) →
      State.rndPort { s with keys := k, inputs := q, draws := d } = s.rndPort) →
    step s = .next t →
    ∃ u, step { s with keys := k, inputs := q, draws := d } = .next u ∧
      State.Frame (· ∈ [.keys, .inputs, .draws]) t u

/-! ### Rules over all instructions -/

/-- Where each instruction leaves `pc`: the table of 10_state.md R42. -/
def Obligations.PcAfterEachInstruction : Prop :=
  ∀ (i : Instr) (s t : State), exec i s = .next t →
    match i with
    | .jp nnn => t.pc.toNat = nnn.toNat
    | .call nnn => t.pc.toNat = nnn.toNat
    | .jpV0 nnn => t.pc.toNat = nnn.toNat + (s.reg 0).toNat
    | .ret => ∃ h : 0 < s.sp.val, t.pc = s.stack[s.sp.val - 1]'(by omega) + 2
    | .seImm x nn => t.pc = s.pc + (if s.reg x = nn then 4 else 2)
    | .sneImm x nn => t.pc = s.pc + (if s.reg x ≠ nn then 4 else 2)
    | .seReg x y => t.pc = s.pc + (if s.reg x = s.reg y then 4 else 2)
    | .sneReg x y => t.pc = s.pc + (if s.reg x ≠ s.reg y then 4 else 2)
    | .skp x => t.pc = s.pc + (if s.keyPort[(s.reg x).toNat]? = some true then 4 else 2)
    | .sknp x => t.pc = s.pc + (if s.keyPort[(s.reg x).toNat]? = some false then 4 else 2)
    | .ldVxK _ => t.pc = if ∀ k : Fin 16, s.key k = false then s.pc else s.pc + 2
    | _ => t.pc = s.pc + 2

/-- The framebuffer has only two mutators, and they are what raises `changed` and `fb_dirty`, whether or not a pixel
changed (10_state.md R54, R56, 40_step_cycle.md R131; the spec's D19 and D23, logs 21, 34). -/
def Obligations.FramebufferHasTwoMutators : Prop :=
  ∀ s t : State, step s = .next t →
    (decodeWord s.fetchWord = .instr .cls ∨ (∃ x y n, decodeWord s.fetchWord = .instr (.drw x y n)) →
      t.out.changed = true ∧ t.fbDirty = true) ∧
    (decodeWord s.fetchWord ≠ .instr .cls → (∀ x y n, decodeWord s.fetchWord ≠ .instr (.drw x y n)) →
      t.out.changed = false ∧ t.fbDirty = s.fbDirty ∧ ∀ px py, t.fb.pixel px py = s.fb.pixel px py)

/-- No instruction other than 2nnn and 00EE writes `sp` or a stack entry (10_state.md R46). -/
def Obligations.OnlyCallAndReturnTouchTheStack : Prop :=
  ∀ s t : State, step s = .next t →
    (∀ nnn, decodeWord s.fetchWord ≠ .instr (.call nnn)) → decodeWord s.fetchWord ≠ .instr .ret →
    t.sp = s.sp ∧ ∀ k : Fin 16, t.stack[k.val] = s.stack[k.val]

/-- No instruction other than Fx33 and Fx55 writes memory (20_memory.md R79). -/
def Obligations.OnlyStoresWriteMemory : Prop :=
  ∀ s t : State, step s = .next t →
    (∀ x, decodeWord s.fetchWord ≠ .instr (.ldB x)) → (∀ x, decodeWord s.fetchWord ≠ .instr (.storeRegs x)) →
    ∀ a, t.mem.byteAt a = s.mem.byteAt a

/-- No instruction other than Annn, Fx1E and Fx29 writes `I`; in particular Dxyn, Fx33, Fx55 and Fx65 do not
(10_state.md R39). -/
def Obligations.OnlyIndexInstructionsWriteI : Prop :=
  ∀ s t : State, step s = .next t →
    (∀ nnn, decodeWord s.fetchWord ≠ .instr (.ldI nnn)) → (∀ x, decodeWord s.fetchWord ≠ .instr (.addI x)) →
    (∀ x, decodeWord s.fetchWord ≠ .instr (.ldF x)) → t.I = s.I

/-- A timer changes only by its own load instruction and by the tick; it never goes below 0 and falls by at most 1 a step;
the two are independent (45_keypad_timers.md R246). -/
def Obligations.TimersFallByAtMostOne : Prop :=
  ∀ s t : State, step s = .next t →
    ((∀ x, decodeWord s.fetchWord ≠ .instr (.ldDtVx x)) → t.dt.toNat = s.dt.toNat - 1) ∧
    ((∀ x, decodeWord s.fetchWord ≠ .instr (.ldStVx x)) → t.st.toNat = s.st.toNat - 1)

/-- "There is no instruction that reads `st`" (45_keypad_timers.md R243): with another value in `st` an instruction has
the same effect on everything else. -/
def Obligations.NoInstructionReadsTheSoundTimer : Prop :=
  ∀ (i : Instr) (s t : State) (v : Byte), exec i s = .next t →
    ∃ u, exec i { s with st := v } = .next u ∧ State.Frame (· ∈ [.st]) t u

/-- Which registers an instruction may write: its destination X, the range V0 to VX for Fx65, and VF for the six
instructions that write it as a side effect (10_state.md R33, R36). -/
def Obligations.RegistersWrittenByEachInstruction : Prop :=
  ∀ (i : Instr) (s t : State) (r : RegIdx), exec i s = .next t →
    (match i with
      | .ldImm x _ | .addImm x _ | .ldReg x _ | .orReg x _ | .andReg x _ | .xorReg x _ | .rnd x _ | .ldVxDt x
      | .ldVxK x => r ≠ x
      | .addReg x _ | .subReg x _ | .shr x _ | .subn x _ | .shl x _ => r ≠ x ∧ r ≠ vF
      | .drw _ _ _ => r ≠ vF
      | .loadRegs x => x < r
      | _ => True) →
    t.reg r = s.reg r

/-! ### Invariants, reset and the host's moves -/

/-- From every state that meets the invariant, a completed step leads to one that does: memory stays in its canonical
form, `pc` at most 0x10FE (10_state.md R44), stack entries at most 4094 (41_flow.md R153). -/
def Obligations.StepKeepsInvariant : Prop :=
  ∀ s t : State, s.Inv → step s = .next t → t.Inv

/-- The state after reset meets the invariant, whatever the font. -/
def Obligations.ResetMeetsInvariant : Prop :=
  State.reset.Inv ∧ ∀ font, (State.resetWith font).Inv

/-- Every move of the host keeps the invariant. -/
def Obligations.HostMovesKeepInvariant : Prop :=
  ∀ (s : State) (m : HostMove), s.Inv → (s.hostMove m).Inv

/-- Every state that resets, steps and host moves can reach, with any font and any inputs, meets the invariant. That each
reset names its own font is the model's choice (log 39). -/
def Obligations.ReachableStatesMeetInvariant : Prop :=
  ∀ s : State, s.Reachable → s.Inv

/-- The state after reset, item by item, with any font as FONT; `State.reset` is the one with the default font
(70_reset_and_hazards.md R301; the zeros of `I`, `dt`, `st`, the keys and `fb_dirty` are the spec's D15, log 17; the
default font is log 1). -/
def Obligations.ResetGivesTheTabledState : Prop :=
  State.resetWith Config.font = State.reset ∧
  ∀ font : Vector Byte 80,
    (∀ r, (State.resetWith font).reg r = 0) ∧ (State.resetWith font).I = 0 ∧ (State.resetWith font).pc = 0x200 ∧
    (State.resetWith font).sp.val = 0 ∧ (∀ k : Fin 16, (State.resetWith font).stack[k.val] = 0) ∧
    (State.resetWith font).dt = 0 ∧ (State.resetWith font).st = 0 ∧
    (∀ a (h : a < 80), (State.resetWith font).mem.byteAt a = font[a]) ∧
    (∀ a, 80 ≤ a → (State.resetWith font).mem.byteAt a = 0) ∧
    (∀ px py, (State.resetWith font).fb.pixel px py = false) ∧ (State.resetWith font).fbDirty = false ∧
    (∀ k : Fin 16, (State.resetWith font).keys[k.val] = false)

/-- A program load writes byte `j` of the sequence to 0x200 + j and nothing else; a sequence of more than 3584 bytes is
rejected whole (R306; rejection: the spec's D21, log 22). -/
def Obligations.ProgramLoadWritesOnlyTheProgram : Prop :=
  ∀ (s : State) (bytes : List Byte),
    (bytes.length ≤ 3584 → ∃ t, hostLoad bytes s = some t ∧
      (∀ j (h : j < bytes.length), t.mem.byteAt (0x200 + j) = bytes[j]) ∧
      State.Frame (fun p => ∃ j, j < bytes.length ∧ p = .byte (0x200 + j)) s t) ∧
    (3584 < bytes.length → hostLoad bytes s = none ∧ s.hostMove (.load bytes) = s)

/-- The host's other moves, each with all it touches: set keys, supply rnd, read-and-clear dirty, and reset, which depends
on nothing of the core's state (R300, R308; the spec's D18 and D19, logs 21, 27; `inputs` and `draws` are the host's,
log 2). -/
def Obligations.HostMovesTouchOnlyTheirOwn : Prop :=
  ∀ s : State,
    (∀ keys, (s.hostMove (.setKeys keys)).keyPort = keys ∧ (s.hostMove (.setKeys keys)).rndPort = s.rndPort ∧
      State.Frame (· ∈ [.keys, .inputs]) s (s.hostMove (.setKeys keys))) ∧
    (∀ b, (s.hostMove (.supplyRnd b)).rndPort = b ∧ (s.hostMove (.supplyRnd b)).keyPort = s.keyPort ∧
      State.Frame (· ∈ [.inputs]) s (s.hostMove (.supplyRnd b))) ∧
    ((hostReadClearDirty s).1 = s.fbDirty ∧ (s.hostMove .readClearDirty).fbDirty = false ∧
      State.Frame (· ∈ [.dirty]) s (s.hostMove .readClearDirty)) ∧
    (∀ font, State.Frame (· ∈ [.inputs, .draws]) (State.resetWith font) (s.hostMove (.reset font)))

/-! ### Control transfer (41_flow.md) -/

/-- `JP nnn` (R150): the word 0x1000 | NNN; always completes, `pc` becomes NNN, nothing else changes. -/
def Obligations.JumpGoesToItsAddress : Prop :=
  ∀ (s : State) (nnn : Addr), decodeWord (BitVec.ofNat 16 (0x1000 + nnn.toNat)) = .instr (.jp nnn) ∧
    ∃ t, exec (.jp nnn) s = .next t ∧ t.pc.toNat = nnn.toNat ∧
    State.Frame (· ∈ [.pc]) s t

/-- `JP V0, nnn` (R152): the word 0xB000 | NNN; always completes, `pc` becomes the unreduced sum NNN + V0, nothing else
changes; where the sum is 4095 or more the next step, whatever else its state holds, halts with FetchOutOfBounds "and
its info shows the unreduced `pc`". -/
def Obligations.JumpV0GoesToTheUnreducedSum : Prop :=
  ∀ (s : State) (nnn : Addr), decodeWord (BitVec.ofNat 16 (0xB000 + nnn.toNat)) = .instr (.jpV0 nnn) ∧
    ∃ t, exec (.jpV0 nnn) s = .next t ∧ t.pc.toNat = nnn.toNat + (s.reg 0).toNat ∧
      (4095 ≤ nnn.toNat + (s.reg 0).toNat → ∀ u : State, u.pc = t.pc → step u = .fault (.fetchOutOfBounds t.pc)) ∧
      State.Frame (· ∈ [.pc]) s t

/-- `CALL nnn` (R151) with a free entry: the address of the CALL itself is pushed, `sp` rises by 1, `pc` becomes NNN,
nothing else changes. The 17th nested CALL is in `InstructionHaltsExactlyByTable` (D5, log 9). -/
def Obligations.CallPushesItsOwnAddress : Prop :=
  ∀ (s : State) (nnn : Addr) (h : s.sp.val < 16), ∃ t, exec (.call nnn) s = .next t ∧
    t.pc.toNat = nnn.toNat ∧ t.sp.val = s.sp.val + 1 ∧ t.stack[s.sp.val] = s.pc ∧
    State.Frame (· ∈ [.pc, .sp, .entry ⟨s.sp.val, h⟩]) s t

/-- `RET` (R153) with an entry in use: `sp` falls by 1, `pc` becomes the popped entry plus 2, the entry stays
(10_state.md R48), nothing else changes. The unmatched RET is in `InstructionHaltsExactlyByTable` (D5, log 9). -/
def Obligations.ReturnGoesAfterThePoppedEntry : Prop :=
  ∀ (s : State) (h : 0 < s.sp.val), ∃ t, exec .ret s = .next t ∧
    t.sp.val + 1 = s.sp.val ∧ t.pc = s.stack[s.sp.val - 1]'(by omega) + 2 ∧
    State.Frame (· ∈ [.pc, .sp]) s t

/-- A CALL pushes its own address, not the address after it; after anything that left `sp` and its entry alone, the RET
adds the 2: execution resumes after the CALL with `sp` as it was (10_state.md R47, 41_flow.md R153). -/
def Obligations.ReturnResumesAfterTheCall : Prop :=
  ∀ (s : State) (nnn : Addr) (h : s.sp.val < 16), ∃ t, exec (.call nnn) s = .next t ∧
    t.stack[s.sp.val] = s.pc ∧ ∀ u : State, u.sp = t.sp → u.stack[s.sp.val] = t.stack[s.sp.val] →
      ∃ v, exec .ret u = .next v ∧ v.pc = s.pc + 2 ∧ v.sp = s.sp

/-- `SE Vx, nn` and `SNE Vx, nn` (R154, R155): their words; they always complete, skip by 4 or advance by 2, nothing else
changes. -/
def Obligations.SkipsOnImmediate : Prop :=
  ∀ (s : State) (x : RegIdx) (nn : Byte),
    (decodeWord (BitVec.ofNat 16 (0x3000 + x.val * 256 + nn.toNat)) = .instr (.seImm x nn) ∧
      ∃ t, exec (.seImm x nn) s = .next t ∧ t.pc = s.pc + (if s.reg x = nn then 4 else 2) ∧
      State.Frame (· ∈ [.pc]) s t) ∧
    (decodeWord (BitVec.ofNat 16 (0x4000 + x.val * 256 + nn.toNat)) = .instr (.sneImm x nn) ∧
      ∃ t, exec (.sneImm x nn) s = .next t ∧ t.pc = s.pc + (if s.reg x = nn then 2 else 4) ∧
      State.Frame (· ∈ [.pc]) s t)

/-- `SE Vx, Vy` and `SNE Vx, Vy` (R156, R157): their words; they always complete; with X = Y the one always skips and the
other never; nothing but `pc` changes. -/
def Obligations.SkipsOnRegister : Prop :=
  ∀ (s : State) (x y : RegIdx),
    (decodeWord (BitVec.ofNat 16 (0x5000 + x.val * 256 + y.val * 16)) = .instr (.seReg x y) ∧
      ∃ t, exec (.seReg x y) s = .next t ∧ t.pc = s.pc + (if s.reg x = s.reg y then 4 else 2) ∧
      (x = y → t.pc = s.pc + 4) ∧ State.Frame (· ∈ [.pc]) s t) ∧
    (decodeWord (BitVec.ofNat 16 (0x9000 + x.val * 256 + y.val * 16)) = .instr (.sneReg x y) ∧
      ∃ t, exec (.sneReg x y) s = .next t ∧ t.pc = s.pc + (if s.reg x = s.reg y then 2 else 4) ∧
      (x = y → t.pc = s.pc + 2) ∧ State.Frame (· ∈ [.pc]) s t)

/-- A state whose `pc` holds a `JP` to itself: every step completes, and only the timers, the outputs and the inputs move
(R150's endless loop; R309, whose end of a run is the model's choice, log 36). -/
def Obligations.JumpToSelfMovesOnlyTheTimers : Prop :=
  ∀ s : State, s.Spins → ∃ t, step s = .next t ∧ t.Spins ∧
    State.Frame (· ∈ [.dt, .st, .changed, .tone, .diag, .keys, .inputs, .draws]) s t

/-! ### Load, ALU and random (42_alu.md) -/

/-- `LD Vx, nn` and `ADD Vx, nn` (R170, R171): their words; they always complete; the sum is modulo 256 and no carry is
recorded, since VF is no part touched unless X = 0xF. -/
def Obligations.LoadAndAddImmediate : Prop :=
  ∀ (s : State) (x : RegIdx) (nn : Byte),
    (decodeWord (BitVec.ofNat 16 (0x6000 + x.val * 256 + nn.toNat)) = .instr (.ldImm x nn) ∧
      ∃ t, exec (.ldImm x nn) s = .next t ∧ t.reg x = nn ∧ t.pc = s.pc + 2 ∧
      State.Frame (· ∈ [.pc, .reg x]) s t) ∧
    (decodeWord (BitVec.ofNat 16 (0x7000 + x.val * 256 + nn.toNat)) = .instr (.addImm x nn) ∧
      ∃ t, exec (.addImm x nn) s = .next t ∧ (t.reg x).toNat = ((s.reg x).toNat + nn.toNat) % 256 ∧
      t.pc = s.pc + 2 ∧ State.Frame (· ∈ [.pc, .reg x]) s t)

/-- `LD`, `OR`, `AND`, `XOR` of two registers (R172 to R175), bit by bit: their words; they always complete, and VF is no
part touched unless X = 0xF. -/
def Obligations.MoveAndLogic : Prop :=
  ∀ (s : State) (x y : RegIdx),
    (decodeWord (BitVec.ofNat 16 (0x8000 + x.val * 256 + y.val * 16)) = .instr (.ldReg x y) ∧
      ∃ t, exec (.ldReg x y) s = .next t ∧ t.reg x = s.reg y ∧ t.pc = s.pc + 2 ∧
      State.Frame (· ∈ [.pc, .reg x]) s t) ∧
    (decodeWord (BitVec.ofNat 16 (0x8001 + x.val * 256 + y.val * 16)) = .instr (.orReg x y) ∧
      ∃ t, exec (.orReg x y) s = .next t ∧
      (∀ b, b < 8 → (t.reg x).getLsbD b = ((s.reg x).getLsbD b || (s.reg y).getLsbD b)) ∧ t.pc = s.pc + 2 ∧
      State.Frame (· ∈ [.pc, .reg x]) s t) ∧
    (decodeWord (BitVec.ofNat 16 (0x8002 + x.val * 256 + y.val * 16)) = .instr (.andReg x y) ∧
      ∃ t, exec (.andReg x y) s = .next t ∧
      (∀ b, b < 8 → (t.reg x).getLsbD b = ((s.reg x).getLsbD b && (s.reg y).getLsbD b)) ∧ t.pc = s.pc + 2 ∧
      State.Frame (· ∈ [.pc, .reg x]) s t) ∧
    (decodeWord (BitVec.ofNat 16 (0x8003 + x.val * 256 + y.val * 16)) = .instr (.xorReg x y) ∧
      ∃ t, exec (.xorReg x y) s = .next t ∧
      (∀ b, b < 8 → (t.reg x).getLsbD b = ((s.reg x).getLsbD b ^^ (s.reg y).getLsbD b)) ∧ t.pc = s.pc + 2 ∧
      State.Frame (· ∈ [.pc, .reg x]) s t)

/-- `ADD Vx, Vy` (R176), every form: the carry goes to VF; where X or Y is 0xF the flag is written first and the registers
are read again (corner cases (c) to (e), the spec's choice D12, log 14). -/
def Obligations.AddRegistersWithCarry : Prop :=
  ∀ (s : State) (x y : RegIdx) (a b c : Nat), a = (s.reg x).toNat → b = (s.reg y).toNat →
    c = (if 255 < a + b then 1 else 0) →
    ∃ t, exec (.addReg x y) s = .next t ∧ t.pc = s.pc + 2 ∧
      (x ≠ 15 → y ≠ 15 → (t.reg x).toNat = (a + b) % 256 ∧ (t.reg 15).toNat = c) ∧
      (x = 15 → y ≠ 15 → (t.reg 15).toNat = (c + b) % 256) ∧
      (x ≠ 15 → y = 15 → (t.reg x).toNat = (a + c) % 256 ∧ (t.reg 15).toNat = c) ∧
      (x = 15 → y = 15 → (t.reg 15).toNat = 2 * c) ∧
      State.Frame (· ∈ [.pc, .reg x, .reg 15]) s t

/-- `SUB Vx, Vy` (R177), every form: VF is NOT borrow; corner cases (d) to (f) are the spec's choice D12 (log 14). -/
def Obligations.SubtractRegistersWithBorrow : Prop :=
  ∀ (s : State) (x y : RegIdx) (a b c : Nat), a = (s.reg x).toNat → b = (s.reg y).toNat →
    c = (if a < b then 0 else 1) →
    ∃ t, exec (.subReg x y) s = .next t ∧ t.pc = s.pc + 2 ∧
      (x ≠ 15 → y ≠ 15 → (t.reg x).toNat = (a + 256 - b) % 256 ∧ (t.reg 15).toNat = c) ∧
      (x = 15 → y ≠ 15 → (t.reg 15).toNat = (c + 256 - b) % 256) ∧
      (x ≠ 15 → y = 15 → (t.reg x).toNat = (a + 256 - c) % 256 ∧ (t.reg 15).toNat = c) ∧
      (x = 15 → y = 15 → (t.reg 15).toNat = 0) ∧
      State.Frame (· ∈ [.pc, .reg x, .reg 15]) s t

/-- `SUBN Vx, Vy` (R179), every form: VF is NOT borrow of VY - VX; corner cases (d) to (f) are the spec's choice D12
(log 14). -/
def Obligations.SubtractReversedWithBorrow : Prop :=
  ∀ (s : State) (x y : RegIdx) (a b c : Nat), a = (s.reg x).toNat → b = (s.reg y).toNat →
    c = (if b < a then 0 else 1) →
    ∃ t, exec (.subn x y) s = .next t ∧ t.pc = s.pc + 2 ∧
      (x ≠ 15 → y ≠ 15 → (t.reg x).toNat = (b + 256 - a) % 256 ∧ (t.reg 15).toNat = c) ∧
      (x = 15 → y ≠ 15 → (t.reg 15).toNat = (b + 256 - c) % 256) ∧
      (x ≠ 15 → y = 15 → (t.reg x).toNat = (c + 256 - a) % 256 ∧ (t.reg 15).toNat = c) ∧
      (x = 15 → y = 15 → (t.reg 15).toNat = 0) ∧
      State.Frame (· ∈ [.pc, .reg x, .reg 15]) s t

/-- `SHR Vx` and `SHL Vx` (R178, R180), for every Y, which is not read: VX shifted in place by one, VF the bit shifted
out; with X = 0xF the result lands last. In place: the spec's D7 (log 20); X = 0xF: the spec's D12 (log 14). -/
def Obligations.ShiftsInPlaceWithBitOut : Prop :=
  ∀ (s : State) (x y : RegIdx) (a : Nat), a = (s.reg x).toNat →
    (∃ t, exec (.shr x y) s = .next t ∧ t.pc = s.pc + 2 ∧
      (x ≠ 15 → (t.reg x).toNat = a / 2 ∧ (t.reg 15).toNat = a % 2) ∧
      (x = 15 → (t.reg 15).toNat = 0) ∧
      State.Frame (· ∈ [.pc, .reg x, .reg 15]) s t) ∧
    (∃ t, exec (.shl x y) s = .next t ∧ t.pc = s.pc + 2 ∧
      (x ≠ 15 → (t.reg x).toNat = a * 2 % 256 ∧ (t.reg 15).toNat = a / 128) ∧
      (x = 15 → (t.reg 15).toNat = if 128 ≤ a then 2 else 0) ∧
      State.Frame (· ∈ [.pc, .reg x, .reg 15]) s t)

/-- `RND Vx, nn` (R181): always completes with `rnd & NN`, where `rnd` is whatever byte the host presents, and any value
else; VF is no part touched unless X = 0xF. The random byte is an input under no law (the spec's D20, log 3). -/
def Obligations.RandomByteIsMasked : Prop :=
  ∀ (s : State) (x : RegIdx) (nn : Byte),
    (∃ t, exec (.rnd x nn) s = .next t ∧ t.reg x = s.rndPort &&& nn ∧ t.pc = s.pc + 2 ∧
      State.Frame (· ∈ [.pc, .reg x]) s t) ∧
    (∀ keys r q, s.inputs = ⟨keys, some r⟩ :: q → s.rndPort = r)

/-! ### Index register and memory (43_index_memory.md) -/

/-- `LD I, nnn` and `LD F, Vx` (R200, R202): their words; they always complete; VX is not masked; memory is not read. -/
def Obligations.IndexLoads : Prop :=
  ∀ s : State,
    (∀ nnn, decodeWord (BitVec.ofNat 16 (0xA000 + nnn.toNat)) = .instr (.ldI nnn) ∧
      ∃ t, exec (.ldI nnn) s = .next t ∧ t.I.toNat = nnn.toNat ∧ t.pc = s.pc + 2 ∧
      State.Frame (· ∈ [.pc, .I]) s t) ∧
    (∀ x : RegIdx, decodeWord (BitVec.ofNat 16 (0xF029 + x.val * 256)) = .instr (.ldF x) ∧
      ∃ t, exec (.ldF x) s = .next t ∧ t.I.toNat = (s.reg x).toNat * 5 ∧ t.pc = s.pc + 2 ∧
      State.Frame (· ∈ [.pc, .I]) s t)

/-- `ADD I, Vx` (R201): always completes, modulo 65536, VF not written (the wrap: the spec's D11, log 13). -/
def Obligations.IndexAddWrapsAtSixteenBits : Prop :=
  ∀ (s : State) (x : RegIdx), ∃ t, exec (.addI x) s = .next t ∧
    t.I.toNat = (s.I.toNat + (s.reg x).toNat) % 65536 ∧ t.pc = s.pc + 2 ∧
    State.Frame (· ∈ [.pc, .I]) s t

/-- `LD B, Vx` (R203) within memory: the three decimal digits of VX at I, I + 1, I + 2, each 0 to 9, and no other byte
changes. The other case halts, in `InstructionHaltsExactlyByTable` (D8, log 10). -/
def Obligations.DecimalDigitsAreStored : Prop :=
  ∀ (s : State) (x : RegIdx), s.I.toNat + 2 ≤ 4095 →
    ∃ t, exec (.ldB x) s = .next t ∧ t.pc = s.pc + 2 ∧
      (t.mem.byteAt s.I.toNat).toNat * 100 + (t.mem.byteAt (s.I.toNat + 1)).toNat * 10 +
        (t.mem.byteAt (s.I.toNat + 2)).toNat = (s.reg x).toNat ∧
      (∀ k, k < 3 → (t.mem.byteAt (s.I.toNat + k)).toNat ≤ 9) ∧
      State.Frame (fun p => p = .pc ∨ ∃ k, k < 3 ∧ p = .byte (s.I.toNat + k)) s t

/-- `LD [I], Vx` (R204) within memory: V0 to VX at I upward, and no other byte, register nor `I` changes. The other case
halts, in `InstructionHaltsExactlyByTable` (D8, log 10). -/
def Obligations.RegistersAreStored : Prop :=
  ∀ (s : State) (x : RegIdx), s.I.toNat + x.val ≤ 4095 →
    ∃ t, exec (.storeRegs x) s = .next t ∧ t.pc = s.pc + 2 ∧
      (∀ i : RegIdx, i ≤ x → t.mem.byteAt (s.dataAddr i.val) = s.reg i) ∧
      State.Frame (fun p => p = .pc ∨ ∃ i : RegIdx, i ≤ x ∧ p = .byte (s.dataAddr i.val)) s t

/-- `LD Vx, [I]` (R205) within memory: V0 to VX from I upward, and no other register, no byte nor `I` changes. The other
case halts, in `InstructionHaltsExactlyByTable` (D8, log 10). -/
def Obligations.RegistersAreLoaded : Prop :=
  ∀ (s : State) (x : RegIdx), s.I.toNat + x.val ≤ 4095 →
    ∃ t, exec (.loadRegs x) s = .next t ∧ t.pc = s.pc + 2 ∧
      (∀ i : RegIdx, i ≤ x → t.reg i = s.mem.byteAt (s.dataAddr i.val)) ∧
      State.Frame (fun p => p = .pc ∨ ∃ i : RegIdx, i ≤ x ∧ p = .reg i) s t

/-- The round trip (R206): Fx55 and then Fx65 with the same I give back the registers stored, whatever happened to the
registers in between. -/
def Obligations.StoreThenLoadReproducesRegisters : Prop :=
  ∀ (s : State) (x : RegIdx) (between : Vector Byte 16), s.I.toNat + x.val ≤ 4095 →
    ∃ t u, exec (.storeRegs x) s = .next t ∧ exec (.loadRegs x) { t with x := between } = .next u ∧
      ∀ i : RegIdx, i ≤ x → u.reg i = s.reg i

/-! ### Display (44_display.md) -/

/-- `CLS` (R220): the word 0x00E0; it always completes, every pixel 0, `changed` and `fb_dirty` raised on a clear screen too
(the spec's D19 and D23, logs 21, 34), nothing else touched. -/
def Obligations.ClearUnsetsEveryPixel : Prop :=
  decodeWord 0x00E0 = .instr .cls ∧ ∀ s : State, ∃ t, exec .cls s = .next t ∧ (∀ px py, t.fb.pixel px py = false) ∧
    t.out.changed = true ∧ t.fbDirty = true ∧ t.pc = s.pc + 2 ∧
    State.Frame (fun p => p = .pc ∨ p = .changed ∨ p = .dirty ∨ ∃ px py, p = .pixel px py) s t

/-- `DRW Vx, Vy, n` (R221, R223 to R226) within memory, every form: exactly the pixels under a set bit of the sprite are
inverted, bit 7 leftmost, coordinates modulo 64 and 32, from the origin (VX, VY) read after VF is cleared; VF is 1 iff
one of them was set, else 0; `changed` and `fb_dirty` are raised. Bit order, wrap, the order of the clear, and
`fb_dirty` with `changed` raised by every draw are the spec's choices D3, D4, D13, D19 and D23 (logs 7, 8, 15, 21,
34). -/
def Obligations.DrawInvertsExactlyTheSprite : Prop :=
  ∀ (s : State) (x y : RegIdx) (n : Nibble) (ox oy : Nat) (covered : Fin 64 → Fin 32 → Prop),
    ox = (if x = 15 then 0 else (s.reg x).toNat) → oy = (if y = 15 then 0 else (s.reg y).toNat) →
    (∀ px py, covered px py ↔ ∃ row col, row < n.toNat ∧ col < 8 ∧
      (s.mem.byteAt (s.I.toNat + row)).getLsbD (7 - col) = true ∧
      px.val = (ox + col) % 64 ∧ py.val = (oy + row) % 32) →
    (n.toNat = 0 ∨ s.I.toNat + n.toNat - 1 ≤ 4095) →
    ∃ t, exec (.drw x y n) s = .next t ∧ t.pc = s.pc + 2 ∧
      (∀ px py, covered px py → t.fb.pixel px py = !s.fb.pixel px py) ∧
      (t.reg 15 = 1 ∨ t.reg 15 = 0) ∧
      (t.reg 15 = 1 ↔ ∃ px py, covered px py ∧ s.fb.pixel px py = true) ∧
      t.out.changed = true ∧ t.fbDirty = true ∧
      State.Frame (fun p => p = .pc ∨ p = .reg 15 ∨ p = .changed ∨ p = .dirty ∨ ∃ px py, covered px py ∧ p = .pixel px py)
        s t

/-- The collision law (R222), in what can be seen before and after: VF is 1 iff at least one pixel went from set to unset
in that draw, else 0. -/
def Obligations.CollisionIffAPixelWasUnset : Prop :=
  ∀ (s t : State) (x y : RegIdx) (n : Nibble), exec (.drw x y n) s = .next t →
    (t.reg 15 = 1 ∧ ∃ px py, s.fb.pixel px py = true ∧ t.fb.pixel px py = false) ∨
    (t.reg 15 = 0 ∧ ∀ px py, s.fb.pixel px py = true → t.fb.pixel px py = true)

/-- Drawing the same sprite twice at the same place restores the framebuffer (R226 (f)). The second draw's VF is 1 iff the
first draw set a pixel: R226 (f)'s own clause on VF (1 iff the sprite has a set bit) fails where every pixel was set
before, and the model follows R221 and R222 (log 24). -/
def Obligations.DrawTwiceRestoresTheFramebuffer : Prop :=
  ∀ (s t : State) (x y : RegIdx) (n : Nibble), exec (.drw x y n) s = .next t →
    ∃ u, exec (.drw x y n) t = .next u ∧ (∀ px py, u.fb.pixel px py = s.fb.pixel px py) ∧
      (u.reg 15 = 1 ↔ ∃ px py, s.fb.pixel px py = false ∧ t.fb.pixel px py = true)

/-! ### Keypad and timers (45_keypad_timers.md) -/

/-- `SKP Vx` and `SKNP Vx` (R240, R241) with VX at most 15: complete, skip by the level of key VX as this step sees it,
nothing but `pc` changes. With VX above 15 they halt, in `InstructionHaltsExactlyByTable` (D9, log 11). -/
def Obligations.SkipsOnKey : Prop :=
  ∀ (s : State) (x : RegIdx) (h : (s.reg x).toNat < 16),
    (∃ t, exec (.skp x) s = .next t ∧ t.pc = s.pc + (if s.keyPort[(s.reg x).toNat] = true then 4 else 2) ∧
      State.Frame (· ∈ [.pc]) s t) ∧
    (∃ t, exec (.sknp x) s = .next t ∧ t.pc = s.pc + (if s.keyPort[(s.reg x).toNat] = true then 2 else 4) ∧
      State.Frame (· ∈ [.pc]) s t)

/-- `LD Vx, K` (R242): with no key pressed the instruction completes and writes nothing, `pc` included; else it stores the
lowest pressed index and advances. Lowest: the spec's choice D10 (log 12). -/
def Obligations.WaitForKeyHoldsPcOrStoresTheLowest : Prop :=
  ∀ (s : State) (x : RegIdx),
    ((∀ k, s.key k = false) → ∃ t, exec (.ldVxK x) s = .next t ∧ State.Frame (fun _ => False) s t) ∧
    (∀ k, s.key k = true → (∀ j, j < k → s.key j = false) →
      ∃ t, exec (.ldVxK x) s = .next t ∧ (t.reg x).toNat = k.val ∧ t.pc = s.pc + 2 ∧
        State.Frame (· ∈ [.pc, .reg x]) s t)

/-- `LD Vx, DT` (R243): always completes with the value the previous step left; the tick of the same step follows, so that
VX is one ahead of the timer. -/
def Obligations.DelayTimerIsReadBeforeTheTick : Prop :=
  ∀ (s : State) (x : RegIdx),
    (∃ t, exec (.ldVxDt x) s = .next t ∧ t.reg x = s.dt ∧ t.pc = s.pc + 2 ∧ State.Frame (· ∈ [.pc, .reg x]) s t) ∧
    (s.pc.toNat + 1 < 4096 → decodeWord s.fetchWord = .instr (.ldVxDt x) →
      ∃ u, step s = .next u ∧ u.reg x = s.dt ∧ u.dt.toNat = s.dt.toNat - 1)

/-- `LD DT, Vx` and `LD ST, Vx` (R244, R245): always complete with VX itself; the tick of the same step follows, so the
step leaves VX - 1 (or 0), and `tone` iff VX was 1. VX and not VX + 1: the spec's choice D6 (log 19). -/
def Obligations.TimersAreLoadedBeforeTheTick : Prop :=
  ∀ (s : State) (x : RegIdx),
    (∃ t, exec (.ldDtVx x) s = .next t ∧ t.dt = s.reg x ∧ t.pc = s.pc + 2 ∧ State.Frame (· ∈ [.pc, .dt]) s t) ∧
    (∃ t, exec (.ldStVx x) s = .next t ∧ t.st = s.reg x ∧ t.pc = s.pc + 2 ∧ State.Frame (· ∈ [.pc, .st]) s t) ∧
    (s.pc.toNat + 1 < 4096 → decodeWord s.fetchWord = .instr (.ldDtVx x) →
      ∃ u, step s = .next u ∧ u.dt.toNat = (s.reg x).toNat - 1 ∧ u.st.toNat = s.st.toNat - 1) ∧
    (s.pc.toNat + 1 < 4096 → decodeWord s.fetchWord = .instr (.ldStVx x) →
      ∃ u, step s = .next u ∧ u.st.toNat = (s.reg x).toNat - 1 ∧ u.dt.toNat = s.dt.toNat - 1 ∧
        (u.out.tone = true ↔ (s.reg x).toNat = 1))
end

