-- ==== Sys2Proof/Laws/Decode.lean ====
section
/-! SUPPORT. The fields of a word in each format, and the bytes of a word. -/

namespace Sys2Proof

@[simp] theorem regOfNibble_nibbleOfReg (r : RegIdx) : regOfNibble (nibbleOfReg r) = r := rfl

@[simp] theorem nibbleOfReg_regOfNibble (b : Nibble) : nibbleOfReg (regOfNibble b) = b := rfl

@[simp] theorem regOfNibble_val (b : Nibble) : (regOfNibble b).val = b.toNat := rfl

@[simp] theorem nibbleOfReg_toNat (r : RegIdx) : (nibbleOfReg r).toNat = r.val := rfl

/-- A register number read back from a nibble with its value. -/
theorem regOfNibble_eq {b : Nibble} {r : RegIdx} (h : b.toNat = r.val) : regOfNibble b = r := Fin.ext h

/-- Appending is scaling and adding. -/
theorem append_toNat {m n : Nat} (a : BitVec m) (b : BitVec n) : (a ++ b).toNat = a.toNat * 2 ^ n + b.toNat := by
  rw [BitVec.toNat_append, ← Nat.shiftLeft_add_eq_or_of_lt b.isLt, Nat.shiftLeft_eq]

/-- The value of a bit field. -/
theorem field_toNat {w : Nat} (op : BitVec w) (lo len : Nat) :
    (op.extractLsb' lo len).toNat = op.toNat / 2 ^ lo % 2 ^ len := by
  rw [BitVec.extractLsb'_toNat, Nat.shiftRight_eq_div_pow]

/-! ### Format A -/

theorem formatA_toNat (g : Nibble) (nnn : Addr) : (formatA g nnn).toNat = g.toNat * 4096 + nnn.toNat := by
  rw [formatA, append_toNat]; rfl

@[simp] theorem fieldsOf_formatA_g (g : Nibble) (nnn : Addr) : (fieldsOf (formatA g nnn)).g = g := by
  apply BitVec.eq_of_toNat_eq
  rw [fieldsOf, field_toNat, formatA_toNat]
  omega

@[simp] theorem fieldsOf_formatA_nnn (g : Nibble) (nnn : Addr) : (fieldsOf (formatA g nnn)).nnn = nnn := by
  apply BitVec.eq_of_toNat_eq
  rw [fieldsOf, field_toNat, formatA_toNat]
  omega

/-! ### Formats I and S -/

theorem formatI_toNat (g : Nibble) (x : RegIdx) (nn : Byte) :
    (formatI g x nn).toNat = g.toNat * 4096 + x.val * 256 + nn.toNat := by
  rw [formatI, append_toNat, append_toNat, nibbleOfReg_toNat]
  omega

@[simp] theorem fieldsOf_formatI_g (g : Nibble) (x : RegIdx) (nn : Byte) : (fieldsOf (formatI g x nn)).g = g := by
  apply BitVec.eq_of_toNat_eq
  rw [fieldsOf, field_toNat, formatI_toNat]
  omega

@[simp] theorem fieldsOf_formatI_x (g : Nibble) (x : RegIdx) (nn : Byte) : (fieldsOf (formatI g x nn)).x = x := by
  apply regOfNibble_eq
  rw [field_toNat, formatI_toNat]
  omega

@[simp] theorem fieldsOf_formatI_nn (g : Nibble) (x : RegIdx) (nn : Byte) : (fieldsOf (formatI g x nn)).nn = nn := by
  apply BitVec.eq_of_toNat_eq
  rw [fieldsOf, field_toNat, formatI_toNat]
  omega

/-! ### Formats R and D -/

theorem formatR_toNat (g : Nibble) (x y : RegIdx) (n : Nibble) :
    (formatR g x y n).toNat = g.toNat * 4096 + x.val * 256 + y.val * 16 + n.toNat := by
  rw [formatR, append_toNat, append_toNat, append_toNat, nibbleOfReg_toNat, nibbleOfReg_toNat]
  omega

@[simp] theorem fieldsOf_formatR_g (g : Nibble) (x y : RegIdx) (n : Nibble) : (fieldsOf (formatR g x y n)).g = g := by
  apply BitVec.eq_of_toNat_eq
  rw [fieldsOf, field_toNat, formatR_toNat]
  omega

@[simp] theorem fieldsOf_formatR_x (g : Nibble) (x y : RegIdx) (n : Nibble) : (fieldsOf (formatR g x y n)).x = x := by
  apply regOfNibble_eq
  rw [field_toNat, formatR_toNat]
  omega

@[simp] theorem fieldsOf_formatR_y (g : Nibble) (x y : RegIdx) (n : Nibble) : (fieldsOf (formatR g x y n)).y = y := by
  apply regOfNibble_eq
  rw [field_toNat, formatR_toNat]
  omega

@[simp] theorem fieldsOf_formatR_n (g : Nibble) (x y : RegIdx) (n : Nibble) : (fieldsOf (formatR g x y n)).n = n := by
  apply BitVec.eq_of_toNat_eq
  rw [fieldsOf, field_toNat, formatR_toNat]
  omega

/-! ### Bytes of a word -/

/-- The value of a word from its bytes: the high byte times 256, plus the low byte (20_memory.md R73). -/
theorem wordOfBytes_toNat (hi lo : Byte) : (wordOfBytes hi lo).toNat = hi.toNat * 256 + lo.toNat := by
  rw [wordOfBytes, append_toNat]; rfl

@[simp] theorem highByte_wordOfBytes (hi lo : Byte) : highByte (wordOfBytes hi lo) = hi := by
  apply BitVec.eq_of_toNat_eq
  rw [highByte, field_toNat, wordOfBytes_toNat]
  omega

@[simp] theorem lowByte_wordOfBytes (hi lo : Byte) : lowByte (wordOfBytes hi lo) = lo := by
  apply BitVec.eq_of_toNat_eq
  rw [lowByte, field_toNat, wordOfBytes_toNat]
  omega

/-- A word is its two bytes, high byte first (20_memory.md R73). -/
@[simp] theorem wordOfBytes_bytes (op : Word) : wordOfBytes (highByte op) (lowByte op) = op := by
  apply BitVec.eq_of_toNat_eq
  rw [wordOfBytes_toNat, highByte, lowByte, field_toNat, field_toNat]
  omega

/-- The fields the decoder extracts always overlap as R101 says. -/
theorem fieldsOf_wf (op : Word) : (fieldsOf op).wf = true := by
  simp only [Fields.wf, fieldsOf, regOfNibble_val, BitVec.extractLsb'_toNat, Nat.shiftRight_eq_div_pow,
    Bool.and_eq_true, beq_iff_eq]
  omega

end Sys2Proof
end

