-- ==== Sys2Proof/Laws/Framebuffer.lean ====
section
/-! SUPPORT. The framebuffer: what a pixel reads as after a toggle and after a clear. -/

namespace Sys2Proof.Machine

/-- A pixel after a toggle: inverted where the toggle is, the same everywhere else. -/
theorem Framebuffer.pixel_toggle (fb : Framebuffer) (px qx : Fin 64) (py qy : Fin 32) :
    (fb.toggle px py).pixel qx qy = (fb.pixel qx qy ^^ (decide (qx = px) && decide (qy = py))) := by
  unfold Framebuffer.toggle Framebuffer.pixel
  rw [Vector.getElem_set]
  by_cases hy : py.val = qy.val
  · have hy' : qy = py := Fin.ext hy.symm
    subst hy'
    by_cases hx : qx = px
    · subst hx; simp
    · have hx' : qx.val ≠ px.val := fun h => hx (Fin.ext h)
      simp only [hx, if_true, BitVec.getLsbD_xor, decide_false, Bool.false_and, Bool.bne_false]
      rw [BitVec.getLsbD_shiftLeft, BitVec.getLsbD_one]
      by_cases h : qx.val < px.val
      · simp [h]
      · have h0 : qx.val - px.val ≠ 0 := by omega
        simp [h0]
  · have hy' : ¬ qy = py := fun h => hy (by rw [h])
    simp [hy, hy']

@[simp] theorem Framebuffer.pixel_clear (px : Fin 64) (py : Fin 32) : Framebuffer.clear.pixel px py = false := by
  simp [Framebuffer.pixel, Framebuffer.clear]

/-- A framebuffer is its pixels. -/
theorem Framebuffer.ext_pixel (f g : Framebuffer) (h : ∀ px py, f.pixel px py = g.pixel px py) : f = g := by
  apply Vector.ext
  intro i hi
  apply BitVec.eq_of_getLsbD_eq
  intro j hj
  exact h ⟨j, hj⟩ ⟨i, hi⟩

end Sys2Proof.Machine
end

