-- ==== Sys2Proof/Laws/Memory.lean ====
section
/-! SUPPORT. Memory: what a byte reads as after each write, for every list, canonical or not; and that every write keeps
the canonical form. -/

namespace Sys2Proof.Machine

@[simp] theorem Memory.byteAt_nil (a : Nat) : Memory.byteAt [] a = Memory.unlisted a := rfl

theorem Memory.byteAt_cons (b : Nat) (v : Byte) (m : Memory) (a : Nat) :
    Memory.byteAt ((b, v) :: m) a = if b = a then v else Memory.byteAt m a := rfl

/-- Inserting a cell changes the byte at its address only, wherever that address is not listed. -/
theorem Memory.byteAt_insert (c : Host.Cell) (m : Memory) (a : Nat) (h : ∀ d ∈ m, d.1 ≠ c.1) :
    Memory.byteAt (Memory.insert c m) a = if c.1 = a then c.2 else Memory.byteAt m a := by
  induction m with
  | nil => rfl
  | cons d rest ih =>
    obtain ⟨b, v⟩ := d
    have hb : b ≠ c.1 := h (b, v) (by simp)
    have hrest : ∀ d ∈ rest, d.1 ≠ c.1 := fun d hd => h d (by simp [hd])
    by_cases hlt : c.1 < b
    · simp [Memory.insert, hlt, Memory.byteAt]
    · by_cases hba : b = a
      · subst hba; simp [Memory.insert, hlt, Memory.byteAt, Ne.symm hb]
      · simp [Memory.insert, hlt, Memory.byteAt, hba, ih hrest]

/-- Dropping the entries of one address leaves every other byte. -/
theorem Memory.byteAt_filter (m : Memory) (a b : Nat) :
    Memory.byteAt (m.filter (fun c => c.1 != a)) b =
      if a = b then Memory.unlisted b else Memory.byteAt m b := by
  induction m with
  | nil => simp
  | cons d rest ih =>
    obtain ⟨e, v⟩ := d
    by_cases he : e = a
    · subst he
      by_cases hb : e = b <;> simp_all [Memory.byteAt]
    · have hk : ((e, v).1 != a) = true := by simpa using he
      rw [List.filter_cons_of_pos (by simpa using hk)]
      by_cases heb : e = b
      · subst heb; simp [Memory.byteAt, Ne.symm he]
      · simp [Memory.byteAt, heb, ih]

/-- A byte after a byte write (20_memory.md R72): of every list, canonical or not. -/
theorem Memory.byteAt_set (m : Memory) (a : Nat) (v : Byte) (b : Nat) :
    Memory.byteAt (m.set a v) b = if a = b then v else Memory.byteAt m b := by
  unfold Memory.set
  by_cases hv : v = Memory.unlisted a
  · rw [if_pos hv, Memory.byteAt_filter]
    by_cases hab : a = b
    · subst hab; simp [hv]
    · simp [hab]
  · simp only [hv, if_false]
    rw [Memory.byteAt_insert, Memory.byteAt_filter]
    · by_cases hab : a = b <;> simp [hab]
    · intro d hd; simpa using (List.mem_filter.mp hd).2

@[simp] theorem Memory.byteAt_set_same (m : Memory) (a : Nat) (v : Byte) : (m.set a v).byteAt a = v := by
  simp [Memory.byteAt_set]

@[simp] theorem Memory.byteAt_set_other (m : Memory) {a b : Nat} (v : Byte) (h : a ≠ b) :
    (m.set a v).byteAt b = m.byteAt b := by
  simp [Memory.byteAt_set, h]

/-- A byte after a run of writes. -/
theorem Memory.byteAt_setList (bs : List Byte) (m : Memory) (a b : Nat) :
    (m.setList a bs).byteAt b =
      if h : a ≤ b ∧ b < a + bs.length then bs[b - a]'(by omega) else m.byteAt b := by
  induction bs generalizing m a with
  | nil =>
    have h : ¬ (a ≤ b ∧ b < a + ([] : List Byte).length) := by simp
    rw [dif_neg h]; rfl
  | cons v bs ih =>
    rw [Memory.setList, ih, Memory.byteAt_set]
    by_cases hab : a = b
    · subst hab
      simp
    · by_cases h1 : a + 1 ≤ b ∧ b < a + 1 + bs.length
      · have h2 : a ≤ b ∧ b < a + (v :: bs).length := by simp; omega
        rw [dif_pos h1, dif_pos h2]
        have h3 : b - a = (b - (a + 1)) + 1 := by omega
        simp [h3]
      · have h2 : ¬ (a ≤ b ∧ b < a + (v :: bs).length) := by simp; omega
        rw [dif_neg h1, dif_neg h2, if_neg hab]

/-! ### The canonical form -/

/-- The canonical form, as a proposition. -/
theorem Memory.wf_iff (m : Memory) :
    m.wf = true ↔ m.Pairwise (fun c d => c.1 < d.1) ∧
      ∀ c ∈ m, c.1 < Config.memSize ∧ c.2 ≠ Memory.unlisted c.1 := by
  simp [Memory.wf]

@[simp] theorem Memory.wf_nil : Memory.wf [] = true := by decide

theorem Memory.mem_insert (c d : Host.Cell) (m : Memory) : d ∈ Memory.insert c m ↔ d = c ∨ d ∈ m := by
  induction m with
  | nil => simp [Memory.insert]
  | cons e rest ih =>
    by_cases h : c.1 < e.1
    · simp [Memory.insert, h]
    · simp [Memory.insert, h, ih]; tauto

theorem Memory.pairwise_insert (c : Host.Cell) (m : Memory) (hm : m.Pairwise (fun c d => c.1 < d.1))
    (h : ∀ d ∈ m, d.1 ≠ c.1) : (Memory.insert c m).Pairwise (fun c d => c.1 < d.1) := by
  induction m with
  | nil => simp [Memory.insert]
  | cons e rest ih =>
    rw [List.pairwise_cons] at hm
    by_cases hlt : c.1 < e.1
    · simp only [Memory.insert, hlt, if_true, List.pairwise_cons]
      refine ⟨?_, hm⟩
      intro d hd
      rcases List.mem_cons.mp hd with rfl | hd
      · exact hlt
      · exact lt_trans hlt (hm.1 d hd)
    · simp only [Memory.insert, hlt, if_false, List.pairwise_cons]
      refine ⟨?_, ih hm.2 (fun d hd => h d (by simp [hd]))⟩
      intro d hd
      rcases (Memory.mem_insert c d rest).mp hd with rfl | hd
      · have := h e (by simp); omega
      · exact hm.1 d hd

/-- A byte write inside the address space keeps the canonical form. -/
theorem Memory.wf_set (m : Memory) (a : Nat) (v : Byte) (hm : m.wf = true) (ha : a < Config.memSize) :
    (m.set a v).wf = true := by
  rw [Memory.wf_iff] at hm ⊢
  have hf : (m.filter (fun c => c.1 != a)).Pairwise (fun c d => c.1 < d.1) := hm.1.filter _
  have hne : ∀ d ∈ m.filter (fun c => c.1 != a), d.1 ≠ a := by
    intro d hd; simpa using (List.mem_filter.mp hd).2
  unfold Memory.set
  by_cases hv : v = Memory.unlisted a
  · simp only [hv, if_true]
    exact ⟨hf, fun c hc => hm.2 c (List.mem_filter.mp hc).1⟩
  · simp only [hv, if_false]
    refine ⟨Memory.pairwise_insert _ _ hf hne, ?_⟩
    intro c hc
    rcases (Memory.mem_insert _ _ _).mp hc with rfl | hc
    · exact ⟨ha, hv⟩
    · exact hm.2 c (List.mem_filter.mp hc).1

/-- A run of writes inside the address space keeps the canonical form. -/
theorem Memory.wf_setList (bs : List Byte) (m : Memory) (a : Nat) (hm : m.wf = true)
    (ha : a + bs.length ≤ Config.memSize) : (m.setList a bs).wf = true := by
  induction bs generalizing m a with
  | nil => simpa [Memory.setList] using hm
  | cons v bs ih =>
    simp only [List.length_cons] at ha
    exact ih _ _ (Memory.wf_set m a v hm (by omega)) (by omega)

/-- Equal memories are equal data: two canonical lists that read the same everywhere are the same list. -/
theorem Memory.ext_of_wf (m n : Memory) (hm : m.wf = true) (hn : n.wf = true)
    (h : ∀ a, m.byteAt a = n.byteAt a) : m = n := by
  rw [Memory.wf_iff] at hm hn
  obtain ⟨hmp, hmv⟩ := hm
  obtain ⟨hnp, hnv⟩ := hn
  have skip : ∀ (l : Memory) (a : Nat), (∀ c ∈ l, a < c.1) → l.byteAt a = Memory.unlisted a := by
    intro l a hl
    induction l with
    | nil => rfl
    | cons c l ih =>
      obtain ⟨b, v⟩ := c
      have : a < b := hl (b, v) (by simp)
      rw [Memory.byteAt_cons, if_neg (by omega), ih (fun c hc => hl c (by simp [hc]))]
  induction m generalizing n with
  | nil =>
    cases n with
    | nil => rfl
    | cons c n =>
      obtain ⟨b, v⟩ := c
      have h1 := h b
      simp [Memory.byteAt] at h1
      exact absurd h1.symm (hnv (b, v) (by simp)).2
  | cons c m ih =>
    obtain ⟨b, v⟩ := c
    rw [List.pairwise_cons] at hmp
    cases n with
    | nil =>
      have h1 := h b
      simp [Memory.byteAt] at h1
      exact absurd h1 (hmv (b, v) (by simp)).2
    | cons d n =>
      obtain ⟨e, w⟩ := d
      rw [List.pairwise_cons] at hnp
      have hbe : b = e := by
        rcases Nat.lt_trichotomy b e with hlt | heq | hgt
        · have h1 := h b
          rw [Memory.byteAt_cons, if_pos rfl, skip ((e, w) :: n) b] at h1
          · exact absurd h1 (hmv (b, v) (by simp)).2
          · intro c hc
            rcases List.mem_cons.mp hc with rfl | hc
            · exact hlt
            · exact lt_trans hlt (hnp.1 c hc)
        · exact heq
        · have h1 := h e
          rw [Memory.byteAt_cons e w n, if_pos rfl, skip ((b, v) :: m) e] at h1
          · exact absurd h1.symm (hnv (e, w) (by simp)).2
          · intro c hc
            rcases List.mem_cons.mp hc with rfl | hc
            · exact hgt
            · exact lt_trans hgt (hmp.1 c hc)
      subst hbe
      have hvw : v = w := by simpa [Memory.byteAt] using h b
      subst hvw
      congr 1
      refine ih n (fun a => ?_) hmp.2 (fun c hc => hmv c (by simp [hc])) hnp.2 (fun c hc => hnv c (by simp [hc]))
      by_cases hab : b = a
      · subst hab
        rw [skip m b hmp.1, skip n b hnp.1]
      · have := h a
        simpa [Memory.byteAt, hab] using this

end Sys2Proof.Machine
end

