-- ==== Sys2Proof/Laws/State.lean ====
section
/-! SUPPORT. Every field of the state after every update of Ops.lean, true by rfl, so that no later proof unfolds a record
update; then the registers and ports after each update. -/

namespace Sys2Proof.Machine

variable (s : State)

/-! ### setReg -/

@[simp] theorem State.setReg_x (r : RegIdx) (v : Byte) : (s.setReg r v).x = s.x.set r.val v := rfl
@[simp] theorem State.setReg_I (r : RegIdx) (v : Byte) : (s.setReg r v).I = s.I := rfl
@[simp] theorem State.setReg_pc (r : RegIdx) (v : Byte) : (s.setReg r v).pc = s.pc := rfl
@[simp] theorem State.setReg_sp (r : RegIdx) (v : Byte) : (s.setReg r v).sp = s.sp := rfl
@[simp] theorem State.setReg_stack (r : RegIdx) (v : Byte) : (s.setReg r v).stack = s.stack := rfl
@[simp] theorem State.setReg_dt (r : RegIdx) (v : Byte) : (s.setReg r v).dt = s.dt := rfl
@[simp] theorem State.setReg_st (r : RegIdx) (v : Byte) : (s.setReg r v).st = s.st := rfl
@[simp] theorem State.setReg_mem (r : RegIdx) (v : Byte) : (s.setReg r v).mem = s.mem := rfl
@[simp] theorem State.setReg_fb (r : RegIdx) (v : Byte) : (s.setReg r v).fb = s.fb := rfl
@[simp] theorem State.setReg_fbDirty (r : RegIdx) (v : Byte) : (s.setReg r v).fbDirty = s.fbDirty := rfl
@[simp] theorem State.setReg_keys (r : RegIdx) (v : Byte) : (s.setReg r v).keys = s.keys := rfl
@[simp] theorem State.setReg_inputs (r : RegIdx) (v : Byte) : (s.setReg r v).inputs = s.inputs := rfl
@[simp] theorem State.setReg_draws (r : RegIdx) (v : Byte) : (s.setReg r v).draws = s.draws := rfl
@[simp] theorem State.setReg_out (r : RegIdx) (v : Byte) : (s.setReg r v).out = s.out := rfl
@[simp] theorem State.setReg_keyPort (r : RegIdx) (v : Byte) : (s.setReg r v).keyPort = s.keyPort := rfl
@[simp] theorem State.setReg_key (r : RegIdx) (v : Byte) (k : Fin 16) : (s.setReg r v).key k = s.key k := rfl
@[simp] theorem State.setReg_lowestKey (r : RegIdx) (v : Byte) : (s.setReg r v).lowestKey = s.lowestKey := rfl
@[simp] theorem State.setReg_rndPort (r : RegIdx) (v : Byte) : (s.setReg r v).rndPort = s.rndPort := rfl
@[simp] theorem State.setReg_dataBad (r : RegIdx) (v : Byte) (k : Nat) : (s.setReg r v).dataBad k = s.dataBad k := rfl
@[simp] theorem State.setReg_dataAddr (r : RegIdx) (v : Byte) (k : Nat) : (s.setReg r v).dataAddr k = s.dataAddr k := rfl
@[simp] theorem State.setReg_fetchBad (r : RegIdx) (v : Byte) : (s.setReg r v).fetchBad = s.fetchBad := rfl
@[simp] theorem State.setReg_fetchWord (r : RegIdx) (v : Byte) : (s.setReg r v).fetchWord = s.fetchWord := rfl

/-! ### setI -/

@[simp] theorem State.setI_x (v : Word) : (s.setI v).x = s.x := rfl
@[simp] theorem State.setI_I (v : Word) : (s.setI v).I = v := rfl
@[simp] theorem State.setI_pc (v : Word) : (s.setI v).pc = s.pc := rfl
@[simp] theorem State.setI_sp (v : Word) : (s.setI v).sp = s.sp := rfl
@[simp] theorem State.setI_stack (v : Word) : (s.setI v).stack = s.stack := rfl
@[simp] theorem State.setI_dt (v : Word) : (s.setI v).dt = s.dt := rfl
@[simp] theorem State.setI_st (v : Word) : (s.setI v).st = s.st := rfl
@[simp] theorem State.setI_mem (v : Word) : (s.setI v).mem = s.mem := rfl
@[simp] theorem State.setI_fb (v : Word) : (s.setI v).fb = s.fb := rfl
@[simp] theorem State.setI_fbDirty (v : Word) : (s.setI v).fbDirty = s.fbDirty := rfl
@[simp] theorem State.setI_keys (v : Word) : (s.setI v).keys = s.keys := rfl
@[simp] theorem State.setI_inputs (v : Word) : (s.setI v).inputs = s.inputs := rfl
@[simp] theorem State.setI_draws (v : Word) : (s.setI v).draws = s.draws := rfl
@[simp] theorem State.setI_out (v : Word) : (s.setI v).out = s.out := rfl
@[simp] theorem State.setI_reg (v : Word) (q : RegIdx) : (s.setI v).reg q = s.reg q := rfl
@[simp] theorem State.setI_keyPort (v : Word) : (s.setI v).keyPort = s.keyPort := rfl
@[simp] theorem State.setI_key (v : Word) (k : Fin 16) : (s.setI v).key k = s.key k := rfl
@[simp] theorem State.setI_lowestKey (v : Word) : (s.setI v).lowestKey = s.lowestKey := rfl
@[simp] theorem State.setI_rndPort (v : Word) : (s.setI v).rndPort = s.rndPort := rfl
@[simp] theorem State.setI_fetchBad (v : Word) : (s.setI v).fetchBad = s.fetchBad := rfl
@[simp] theorem State.setI_fetchWord (v : Word) : (s.setI v).fetchWord = s.fetchWord := rfl

/-! ### jump -/

@[simp] theorem State.jump_x (v : Word) : (s.jump v).x = s.x := rfl
@[simp] theorem State.jump_I (v : Word) : (s.jump v).I = s.I := rfl
@[simp] theorem State.jump_pc (v : Word) : (s.jump v).pc = v := rfl
@[simp] theorem State.jump_sp (v : Word) : (s.jump v).sp = s.sp := rfl
@[simp] theorem State.jump_stack (v : Word) : (s.jump v).stack = s.stack := rfl
@[simp] theorem State.jump_dt (v : Word) : (s.jump v).dt = s.dt := rfl
@[simp] theorem State.jump_st (v : Word) : (s.jump v).st = s.st := rfl
@[simp] theorem State.jump_mem (v : Word) : (s.jump v).mem = s.mem := rfl
@[simp] theorem State.jump_fb (v : Word) : (s.jump v).fb = s.fb := rfl
@[simp] theorem State.jump_fbDirty (v : Word) : (s.jump v).fbDirty = s.fbDirty := rfl
@[simp] theorem State.jump_keys (v : Word) : (s.jump v).keys = s.keys := rfl
@[simp] theorem State.jump_inputs (v : Word) : (s.jump v).inputs = s.inputs := rfl
@[simp] theorem State.jump_draws (v : Word) : (s.jump v).draws = s.draws := rfl
@[simp] theorem State.jump_out (v : Word) : (s.jump v).out = s.out := rfl
@[simp] theorem State.jump_reg (v : Word) (q : RegIdx) : (s.jump v).reg q = s.reg q := rfl
@[simp] theorem State.jump_keyPort (v : Word) : (s.jump v).keyPort = s.keyPort := rfl
@[simp] theorem State.jump_key (v : Word) (k : Fin 16) : (s.jump v).key k = s.key k := rfl
@[simp] theorem State.jump_lowestKey (v : Word) : (s.jump v).lowestKey = s.lowestKey := rfl
@[simp] theorem State.jump_rndPort (v : Word) : (s.jump v).rndPort = s.rndPort := rfl
@[simp] theorem State.jump_dataBad (v : Word) (k : Nat) : (s.jump v).dataBad k = s.dataBad k := rfl
@[simp] theorem State.jump_dataAddr (v : Word) (k : Nat) : (s.jump v).dataAddr k = s.dataAddr k := rfl

/-! ### advance -/

@[simp] theorem State.advance_x (v : Word) : (s.advance v).x = s.x := rfl
@[simp] theorem State.advance_I (v : Word) : (s.advance v).I = s.I := rfl
@[simp] theorem State.advance_pc (v : Word) : (s.advance v).pc = s.pc + v := rfl
@[simp] theorem State.advance_sp (v : Word) : (s.advance v).sp = s.sp := rfl
@[simp] theorem State.advance_stack (v : Word) : (s.advance v).stack = s.stack := rfl
@[simp] theorem State.advance_dt (v : Word) : (s.advance v).dt = s.dt := rfl
@[simp] theorem State.advance_st (v : Word) : (s.advance v).st = s.st := rfl
@[simp] theorem State.advance_mem (v : Word) : (s.advance v).mem = s.mem := rfl
@[simp] theorem State.advance_fb (v : Word) : (s.advance v).fb = s.fb := rfl
@[simp] theorem State.advance_fbDirty (v : Word) : (s.advance v).fbDirty = s.fbDirty := rfl
@[simp] theorem State.advance_keys (v : Word) : (s.advance v).keys = s.keys := rfl
@[simp] theorem State.advance_inputs (v : Word) : (s.advance v).inputs = s.inputs := rfl
@[simp] theorem State.advance_draws (v : Word) : (s.advance v).draws = s.draws := rfl
@[simp] theorem State.advance_out (v : Word) : (s.advance v).out = s.out := rfl
@[simp] theorem State.advance_reg (v : Word) (q : RegIdx) : (s.advance v).reg q = s.reg q := rfl
@[simp] theorem State.advance_keyPort (v : Word) : (s.advance v).keyPort = s.keyPort := rfl
@[simp] theorem State.advance_key (v : Word) (k : Fin 16) : (s.advance v).key k = s.key k := rfl
@[simp] theorem State.advance_lowestKey (v : Word) : (s.advance v).lowestKey = s.lowestKey := rfl
@[simp] theorem State.advance_rndPort (v : Word) : (s.advance v).rndPort = s.rndPort := rfl
@[simp] theorem State.advance_dataBad (v : Word) (k : Nat) : (s.advance v).dataBad k = s.dataBad k := rfl
@[simp] theorem State.advance_dataAddr (v : Word) (k : Nat) : (s.advance v).dataAddr k = s.dataAddr k := rfl

/-! ### setDt -/

@[simp] theorem State.setDt_x (v : Byte) : (s.setDt v).x = s.x := rfl
@[simp] theorem State.setDt_I (v : Byte) : (s.setDt v).I = s.I := rfl
@[simp] theorem State.setDt_pc (v : Byte) : (s.setDt v).pc = s.pc := rfl
@[simp] theorem State.setDt_sp (v : Byte) : (s.setDt v).sp = s.sp := rfl
@[simp] theorem State.setDt_stack (v : Byte) : (s.setDt v).stack = s.stack := rfl
@[simp] theorem State.setDt_dt (v : Byte) : (s.setDt v).dt = v := rfl
@[simp] theorem State.setDt_st (v : Byte) : (s.setDt v).st = s.st := rfl
@[simp] theorem State.setDt_mem (v : Byte) : (s.setDt v).mem = s.mem := rfl
@[simp] theorem State.setDt_fb (v : Byte) : (s.setDt v).fb = s.fb := rfl
@[simp] theorem State.setDt_fbDirty (v : Byte) : (s.setDt v).fbDirty = s.fbDirty := rfl
@[simp] theorem State.setDt_keys (v : Byte) : (s.setDt v).keys = s.keys := rfl
@[simp] theorem State.setDt_inputs (v : Byte) : (s.setDt v).inputs = s.inputs := rfl
@[simp] theorem State.setDt_draws (v : Byte) : (s.setDt v).draws = s.draws := rfl
@[simp] theorem State.setDt_out (v : Byte) : (s.setDt v).out = s.out := rfl
@[simp] theorem State.setDt_reg (v : Byte) (q : RegIdx) : (s.setDt v).reg q = s.reg q := rfl
@[simp] theorem State.setDt_keyPort (v : Byte) : (s.setDt v).keyPort = s.keyPort := rfl
@[simp] theorem State.setDt_key (v : Byte) (k : Fin 16) : (s.setDt v).key k = s.key k := rfl
@[simp] theorem State.setDt_lowestKey (v : Byte) : (s.setDt v).lowestKey = s.lowestKey := rfl
@[simp] theorem State.setDt_rndPort (v : Byte) : (s.setDt v).rndPort = s.rndPort := rfl
@[simp] theorem State.setDt_dataBad (v : Byte) (k : Nat) : (s.setDt v).dataBad k = s.dataBad k := rfl
@[simp] theorem State.setDt_dataAddr (v : Byte) (k : Nat) : (s.setDt v).dataAddr k = s.dataAddr k := rfl
@[simp] theorem State.setDt_fetchBad (v : Byte) : (s.setDt v).fetchBad = s.fetchBad := rfl
@[simp] theorem State.setDt_fetchWord (v : Byte) : (s.setDt v).fetchWord = s.fetchWord := rfl

/-! ### setSt -/

@[simp] theorem State.setSt_x (v : Byte) : (s.setSt v).x = s.x := rfl
@[simp] theorem State.setSt_I (v : Byte) : (s.setSt v).I = s.I := rfl
@[simp] theorem State.setSt_pc (v : Byte) : (s.setSt v).pc = s.pc := rfl
@[simp] theorem State.setSt_sp (v : Byte) : (s.setSt v).sp = s.sp := rfl
@[simp] theorem State.setSt_stack (v : Byte) : (s.setSt v).stack = s.stack := rfl
@[simp] theorem State.setSt_dt (v : Byte) : (s.setSt v).dt = s.dt := rfl
@[simp] theorem State.setSt_st (v : Byte) : (s.setSt v).st = v := rfl
@[simp] theorem State.setSt_mem (v : Byte) : (s.setSt v).mem = s.mem := rfl
@[simp] theorem State.setSt_fb (v : Byte) : (s.setSt v).fb = s.fb := rfl
@[simp] theorem State.setSt_fbDirty (v : Byte) : (s.setSt v).fbDirty = s.fbDirty := rfl
@[simp] theorem State.setSt_keys (v : Byte) : (s.setSt v).keys = s.keys := rfl
@[simp] theorem State.setSt_inputs (v : Byte) : (s.setSt v).inputs = s.inputs := rfl
@[simp] theorem State.setSt_draws (v : Byte) : (s.setSt v).draws = s.draws := rfl
@[simp] theorem State.setSt_out (v : Byte) : (s.setSt v).out = s.out := rfl
@[simp] theorem State.setSt_reg (v : Byte) (q : RegIdx) : (s.setSt v).reg q = s.reg q := rfl
@[simp] theorem State.setSt_keyPort (v : Byte) : (s.setSt v).keyPort = s.keyPort := rfl
@[simp] theorem State.setSt_key (v : Byte) (k : Fin 16) : (s.setSt v).key k = s.key k := rfl
@[simp] theorem State.setSt_lowestKey (v : Byte) : (s.setSt v).lowestKey = s.lowestKey := rfl
@[simp] theorem State.setSt_rndPort (v : Byte) : (s.setSt v).rndPort = s.rndPort := rfl
@[simp] theorem State.setSt_dataBad (v : Byte) (k : Nat) : (s.setSt v).dataBad k = s.dataBad k := rfl
@[simp] theorem State.setSt_dataAddr (v : Byte) (k : Nat) : (s.setSt v).dataAddr k = s.dataAddr k := rfl
@[simp] theorem State.setSt_fetchBad (v : Byte) : (s.setSt v).fetchBad = s.fetchBad := rfl
@[simp] theorem State.setSt_fetchWord (v : Byte) : (s.setSt v).fetchWord = s.fetchWord := rfl

/-! ### setMem -/

@[simp] theorem State.setMem_x (m : Memory) : (s.setMem m).x = s.x := rfl
@[simp] theorem State.setMem_I (m : Memory) : (s.setMem m).I = s.I := rfl
@[simp] theorem State.setMem_pc (m : Memory) : (s.setMem m).pc = s.pc := rfl
@[simp] theorem State.setMem_sp (m : Memory) : (s.setMem m).sp = s.sp := rfl
@[simp] theorem State.setMem_stack (m : Memory) : (s.setMem m).stack = s.stack := rfl
@[simp] theorem State.setMem_dt (m : Memory) : (s.setMem m).dt = s.dt := rfl
@[simp] theorem State.setMem_st (m : Memory) : (s.setMem m).st = s.st := rfl
@[simp] theorem State.setMem_mem (m : Memory) : (s.setMem m).mem = m := rfl
@[simp] theorem State.setMem_fb (m : Memory) : (s.setMem m).fb = s.fb := rfl
@[simp] theorem State.setMem_fbDirty (m : Memory) : (s.setMem m).fbDirty = s.fbDirty := rfl
@[simp] theorem State.setMem_keys (m : Memory) : (s.setMem m).keys = s.keys := rfl
@[simp] theorem State.setMem_inputs (m : Memory) : (s.setMem m).inputs = s.inputs := rfl
@[simp] theorem State.setMem_draws (m : Memory) : (s.setMem m).draws = s.draws := rfl
@[simp] theorem State.setMem_out (m : Memory) : (s.setMem m).out = s.out := rfl
@[simp] theorem State.setMem_reg (m : Memory) (q : RegIdx) : (s.setMem m).reg q = s.reg q := rfl
@[simp] theorem State.setMem_keyPort (m : Memory) : (s.setMem m).keyPort = s.keyPort := rfl
@[simp] theorem State.setMem_key (m : Memory) (k : Fin 16) : (s.setMem m).key k = s.key k := rfl
@[simp] theorem State.setMem_lowestKey (m : Memory) : (s.setMem m).lowestKey = s.lowestKey := rfl
@[simp] theorem State.setMem_rndPort (m : Memory) : (s.setMem m).rndPort = s.rndPort := rfl
@[simp] theorem State.setMem_dataBad (m : Memory) (k : Nat) : (s.setMem m).dataBad k = s.dataBad k := rfl
@[simp] theorem State.setMem_dataAddr (m : Memory) (k : Nat) : (s.setMem m).dataAddr k = s.dataAddr k := rfl
@[simp] theorem State.setMem_fetchBad (m : Memory) : (s.setMem m).fetchBad = s.fetchBad := rfl

/-! ### drawn -/

@[simp] theorem State.drawn_x (g : Framebuffer) : (s.drawn g).x = s.x := rfl
@[simp] theorem State.drawn_I (g : Framebuffer) : (s.drawn g).I = s.I := rfl
@[simp] theorem State.drawn_pc (g : Framebuffer) : (s.drawn g).pc = s.pc := rfl
@[simp] theorem State.drawn_sp (g : Framebuffer) : (s.drawn g).sp = s.sp := rfl
@[simp] theorem State.drawn_stack (g : Framebuffer) : (s.drawn g).stack = s.stack := rfl
@[simp] theorem State.drawn_dt (g : Framebuffer) : (s.drawn g).dt = s.dt := rfl
@[simp] theorem State.drawn_st (g : Framebuffer) : (s.drawn g).st = s.st := rfl
@[simp] theorem State.drawn_mem (g : Framebuffer) : (s.drawn g).mem = s.mem := rfl
@[simp] theorem State.drawn_fb (g : Framebuffer) : (s.drawn g).fb = g := rfl
@[simp] theorem State.drawn_fbDirty (g : Framebuffer) : (s.drawn g).fbDirty = true := rfl
@[simp] theorem State.drawn_keys (g : Framebuffer) : (s.drawn g).keys = s.keys := rfl
@[simp] theorem State.drawn_inputs (g : Framebuffer) : (s.drawn g).inputs = s.inputs := rfl
@[simp] theorem State.drawn_draws (g : Framebuffer) : (s.drawn g).draws = s.draws := rfl
@[simp] theorem State.drawn_out (g : Framebuffer) : (s.drawn g).out = { s.out with changed := true } := rfl
@[simp] theorem State.drawn_reg (g : Framebuffer) (q : RegIdx) : (s.drawn g).reg q = s.reg q := rfl
@[simp] theorem State.drawn_keyPort (g : Framebuffer) : (s.drawn g).keyPort = s.keyPort := rfl
@[simp] theorem State.drawn_key (g : Framebuffer) (k : Fin 16) : (s.drawn g).key k = s.key k := rfl
@[simp] theorem State.drawn_lowestKey (g : Framebuffer) : (s.drawn g).lowestKey = s.lowestKey := rfl
@[simp] theorem State.drawn_rndPort (g : Framebuffer) : (s.drawn g).rndPort = s.rndPort := rfl
@[simp] theorem State.drawn_dataBad (g : Framebuffer) (k : Nat) : (s.drawn g).dataBad k = s.dataBad k := rfl
@[simp] theorem State.drawn_dataAddr (g : Framebuffer) (k : Nat) : (s.drawn g).dataAddr k = s.dataAddr k := rfl
@[simp] theorem State.drawn_fetchBad (g : Framebuffer) : (s.drawn g).fetchBad = s.fetchBad := rfl
@[simp] theorem State.drawn_fetchWord (g : Framebuffer) : (s.drawn g).fetchWord = s.fetchWord := rfl

/-! ### push -/

@[simp] theorem State.push_x (v : Word) (h : s.sp.val < 16) : (s.push v h).x = s.x := rfl
@[simp] theorem State.push_I (v : Word) (h : s.sp.val < 16) : (s.push v h).I = s.I := rfl
@[simp] theorem State.push_pc (v : Word) (h : s.sp.val < 16) : (s.push v h).pc = s.pc := rfl
@[simp] theorem State.push_sp (v : Word) (h : s.sp.val < 16) : (s.push v h).sp = ⟨s.sp.val + 1, by omega⟩ := rfl
@[simp] theorem State.push_stack (v : Word) (h : s.sp.val < 16) : (s.push v h).stack = s.stack.set s.sp.val v := rfl
@[simp] theorem State.push_dt (v : Word) (h : s.sp.val < 16) : (s.push v h).dt = s.dt := rfl
@[simp] theorem State.push_st (v : Word) (h : s.sp.val < 16) : (s.push v h).st = s.st := rfl
@[simp] theorem State.push_mem (v : Word) (h : s.sp.val < 16) : (s.push v h).mem = s.mem := rfl
@[simp] theorem State.push_fb (v : Word) (h : s.sp.val < 16) : (s.push v h).fb = s.fb := rfl
@[simp] theorem State.push_fbDirty (v : Word) (h : s.sp.val < 16) : (s.push v h).fbDirty = s.fbDirty := rfl
@[simp] theorem State.push_keys (v : Word) (h : s.sp.val < 16) : (s.push v h).keys = s.keys := rfl
@[simp] theorem State.push_inputs (v : Word) (h : s.sp.val < 16) : (s.push v h).inputs = s.inputs := rfl
@[simp] theorem State.push_draws (v : Word) (h : s.sp.val < 16) : (s.push v h).draws = s.draws := rfl
@[simp] theorem State.push_out (v : Word) (h : s.sp.val < 16) : (s.push v h).out = s.out := rfl
@[simp] theorem State.push_reg (v : Word) (h : s.sp.val < 16) (q : RegIdx) : (s.push v h).reg q = s.reg q := rfl
@[simp] theorem State.push_keyPort (v : Word) (h : s.sp.val < 16) : (s.push v h).keyPort = s.keyPort := rfl
@[simp] theorem State.push_key (v : Word) (h : s.sp.val < 16) (k : Fin 16) : (s.push v h).key k = s.key k := rfl
@[simp] theorem State.push_lowestKey (v : Word) (h : s.sp.val < 16) : (s.push v h).lowestKey = s.lowestKey := rfl
@[simp] theorem State.push_rndPort (v : Word) (h : s.sp.val < 16) : (s.push v h).rndPort = s.rndPort := rfl
@[simp] theorem State.push_dataBad (v : Word) (h : s.sp.val < 16) (k : Nat) : (s.push v h).dataBad k = s.dataBad k := rfl
@[simp] theorem State.push_dataAddr (v : Word) (h : s.sp.val < 16) (k : Nat) : (s.push v h).dataAddr k = s.dataAddr k := rfl
@[simp] theorem State.push_fetchBad (v : Word) (h : s.sp.val < 16) : (s.push v h).fetchBad = s.fetchBad := rfl
@[simp] theorem State.push_fetchWord (v : Word) (h : s.sp.val < 16) : (s.push v h).fetchWord = s.fetchWord := rfl

/-! ### pop -/

@[simp] theorem State.pop_x : (s.pop).x = s.x := rfl
@[simp] theorem State.pop_I : (s.pop).I = s.I := rfl
@[simp] theorem State.pop_pc : (s.pop).pc = s.pc := rfl
@[simp] theorem State.pop_sp : (s.pop).sp = ⟨s.sp.val - 1, by omega⟩ := rfl
@[simp] theorem State.pop_stack : (s.pop).stack = s.stack := rfl
@[simp] theorem State.pop_dt : (s.pop).dt = s.dt := rfl
@[simp] theorem State.pop_st : (s.pop).st = s.st := rfl
@[simp] theorem State.pop_mem : (s.pop).mem = s.mem := rfl
@[simp] theorem State.pop_fb : (s.pop).fb = s.fb := rfl
@[simp] theorem State.pop_fbDirty : (s.pop).fbDirty = s.fbDirty := rfl
@[simp] theorem State.pop_keys : (s.pop).keys = s.keys := rfl
@[simp] theorem State.pop_inputs : (s.pop).inputs = s.inputs := rfl
@[simp] theorem State.pop_draws : (s.pop).draws = s.draws := rfl
@[simp] theorem State.pop_out : (s.pop).out = s.out := rfl
@[simp] theorem State.pop_reg (q : RegIdx) : (s.pop).reg q = s.reg q := rfl
@[simp] theorem State.pop_keyPort : (s.pop).keyPort = s.keyPort := rfl
@[simp] theorem State.pop_key (k : Fin 16) : (s.pop).key k = s.key k := rfl
@[simp] theorem State.pop_lowestKey : (s.pop).lowestKey = s.lowestKey := rfl
@[simp] theorem State.pop_rndPort : (s.pop).rndPort = s.rndPort := rfl
@[simp] theorem State.pop_dataBad (k : Nat) : (s.pop).dataBad k = s.dataBad k := rfl
@[simp] theorem State.pop_dataAddr (k : Nat) : (s.pop).dataAddr k = s.dataAddr k := rfl
@[simp] theorem State.pop_fetchBad : (s.pop).fetchBad = s.fetchBad := rfl
@[simp] theorem State.pop_fetchWord : (s.pop).fetchWord = s.fetchWord := rfl

/-! ### beginStep -/

@[simp] theorem State.beginStep_x : (s.beginStep).x = s.x := rfl
@[simp] theorem State.beginStep_I : (s.beginStep).I = s.I := rfl
@[simp] theorem State.beginStep_pc : (s.beginStep).pc = s.pc := rfl
@[simp] theorem State.beginStep_sp : (s.beginStep).sp = s.sp := rfl
@[simp] theorem State.beginStep_stack : (s.beginStep).stack = s.stack := rfl
@[simp] theorem State.beginStep_dt : (s.beginStep).dt = s.dt := rfl
@[simp] theorem State.beginStep_st : (s.beginStep).st = s.st := rfl
@[simp] theorem State.beginStep_mem : (s.beginStep).mem = s.mem := rfl
@[simp] theorem State.beginStep_fb : (s.beginStep).fb = s.fb := rfl
@[simp] theorem State.beginStep_fbDirty : (s.beginStep).fbDirty = s.fbDirty := rfl
@[simp] theorem State.beginStep_keys : (s.beginStep).keys = s.keys := rfl
@[simp] theorem State.beginStep_inputs : (s.beginStep).inputs = s.inputs := rfl
@[simp] theorem State.beginStep_draws : (s.beginStep).draws = s.draws := rfl
@[simp] theorem State.beginStep_out : (s.beginStep).out = Outputs.none := rfl
@[simp] theorem State.beginStep_reg (q : RegIdx) : (s.beginStep).reg q = s.reg q := rfl
@[simp] theorem State.beginStep_keyPort : (s.beginStep).keyPort = s.keyPort := rfl
@[simp] theorem State.beginStep_key (k : Fin 16) : (s.beginStep).key k = s.key k := rfl
@[simp] theorem State.beginStep_lowestKey : (s.beginStep).lowestKey = s.lowestKey := rfl
@[simp] theorem State.beginStep_rndPort : (s.beginStep).rndPort = s.rndPort := rfl
@[simp] theorem State.beginStep_dataBad (k : Nat) : (s.beginStep).dataBad k = s.dataBad k := rfl
@[simp] theorem State.beginStep_dataAddr (k : Nat) : (s.beginStep).dataAddr k = s.dataAddr k := rfl
@[simp] theorem State.beginStep_fetchBad : (s.beginStep).fetchBad = s.fetchBad := rfl
@[simp] theorem State.beginStep_fetchWord : (s.beginStep).fetchWord = s.fetchWord := rfl

/-! ### tick -/

@[simp] theorem State.tick_x : (s.tick).x = s.x := rfl
@[simp] theorem State.tick_I : (s.tick).I = s.I := rfl
@[simp] theorem State.tick_pc : (s.tick).pc = s.pc := rfl
@[simp] theorem State.tick_sp : (s.tick).sp = s.sp := rfl
@[simp] theorem State.tick_stack : (s.tick).stack = s.stack := rfl
@[simp] theorem State.tick_dt : (s.tick).dt = tickTimer s.dt := rfl
@[simp] theorem State.tick_st : (s.tick).st = tickTimer s.st := rfl
@[simp] theorem State.tick_mem : (s.tick).mem = s.mem := rfl
@[simp] theorem State.tick_fb : (s.tick).fb = s.fb := rfl
@[simp] theorem State.tick_fbDirty : (s.tick).fbDirty = s.fbDirty := rfl
@[simp] theorem State.tick_keys : (s.tick).keys = s.keys := rfl
@[simp] theorem State.tick_inputs : (s.tick).inputs = s.inputs := rfl
@[simp] theorem State.tick_draws : (s.tick).draws = s.draws := rfl
@[simp] theorem State.tick_out : (s.tick).out = { s.out with tone := decide (s.st = 1) } := rfl
@[simp] theorem State.tick_reg (q : RegIdx) : (s.tick).reg q = s.reg q := rfl
@[simp] theorem State.tick_keyPort : (s.tick).keyPort = s.keyPort := rfl
@[simp] theorem State.tick_key (k : Fin 16) : (s.tick).key k = s.key k := rfl
@[simp] theorem State.tick_lowestKey : (s.tick).lowestKey = s.lowestKey := rfl
@[simp] theorem State.tick_rndPort : (s.tick).rndPort = s.rndPort := rfl
@[simp] theorem State.tick_dataBad (k : Nat) : (s.tick).dataBad k = s.dataBad k := rfl
@[simp] theorem State.tick_dataAddr (k : Nat) : (s.tick).dataAddr k = s.dataAddr k := rfl
@[simp] theorem State.tick_fetchBad : (s.tick).fetchBad = s.fetchBad := rfl
@[simp] theorem State.tick_fetchWord : (s.tick).fetchWord = s.fetchWord := rfl

/-! ### consumeInputs -/

@[simp] theorem State.consumeInputs_x : (s.consumeInputs).x = s.x := rfl
@[simp] theorem State.consumeInputs_I : (s.consumeInputs).I = s.I := rfl
@[simp] theorem State.consumeInputs_pc : (s.consumeInputs).pc = s.pc := rfl
@[simp] theorem State.consumeInputs_sp : (s.consumeInputs).sp = s.sp := rfl
@[simp] theorem State.consumeInputs_stack : (s.consumeInputs).stack = s.stack := rfl
@[simp] theorem State.consumeInputs_dt : (s.consumeInputs).dt = s.dt := rfl
@[simp] theorem State.consumeInputs_st : (s.consumeInputs).st = s.st := rfl
@[simp] theorem State.consumeInputs_mem : (s.consumeInputs).mem = s.mem := rfl
@[simp] theorem State.consumeInputs_fb : (s.consumeInputs).fb = s.fb := rfl
@[simp] theorem State.consumeInputs_fbDirty : (s.consumeInputs).fbDirty = s.fbDirty := rfl
@[simp] theorem State.consumeInputs_keys : (s.consumeInputs).keys = s.keyPort := rfl
@[simp] theorem State.consumeInputs_inputs : (s.consumeInputs).inputs = s.inputs.tail := rfl
@[simp] theorem State.consumeInputs_draws : (s.consumeInputs).draws = s.draws + 1 := rfl
@[simp] theorem State.consumeInputs_out : (s.consumeInputs).out = s.out := rfl
@[simp] theorem State.consumeInputs_reg (q : RegIdx) : (s.consumeInputs).reg q = s.reg q := rfl
@[simp] theorem State.consumeInputs_dataBad (k : Nat) : (s.consumeInputs).dataBad k = s.dataBad k := rfl
@[simp] theorem State.consumeInputs_dataAddr (k : Nat) : (s.consumeInputs).dataAddr k = s.dataAddr k := rfl
@[simp] theorem State.consumeInputs_fetchBad : (s.consumeInputs).fetchBad = s.fetchBad := rfl
@[simp] theorem State.consumeInputs_fetchWord : (s.consumeInputs).fetchWord = s.fetchWord := rfl

/-! ### endStep -/

@[simp] theorem State.endStep_x : (s.endStep).x = s.x := rfl
@[simp] theorem State.endStep_I : (s.endStep).I = s.I := rfl
@[simp] theorem State.endStep_pc : (s.endStep).pc = s.pc := rfl
@[simp] theorem State.endStep_sp : (s.endStep).sp = s.sp := rfl
@[simp] theorem State.endStep_stack : (s.endStep).stack = s.stack := rfl
@[simp] theorem State.endStep_dt : (s.endStep).dt = tickTimer s.dt := rfl
@[simp] theorem State.endStep_st : (s.endStep).st = tickTimer s.st := rfl
@[simp] theorem State.endStep_mem : (s.endStep).mem = s.mem := rfl
@[simp] theorem State.endStep_fb : (s.endStep).fb = s.fb := rfl
@[simp] theorem State.endStep_fbDirty : (s.endStep).fbDirty = s.fbDirty := rfl
@[simp] theorem State.endStep_keys : (s.endStep).keys = s.keyPort := rfl
@[simp] theorem State.endStep_inputs : (s.endStep).inputs = s.inputs.tail := rfl
@[simp] theorem State.endStep_draws : (s.endStep).draws = s.draws + 1 := rfl
@[simp] theorem State.endStep_out : (s.endStep).out = { s.out with tone := decide (s.st = 1) } := rfl
@[simp] theorem State.endStep_reg (q : RegIdx) : (s.endStep).reg q = s.reg q := rfl
@[simp] theorem State.endStep_dataBad (k : Nat) : (s.endStep).dataBad k = s.dataBad k := rfl
@[simp] theorem State.endStep_dataAddr (k : Nat) : (s.endStep).dataAddr k = s.dataAddr k := rfl
@[simp] theorem State.endStep_fetchBad : (s.endStep).fetchBad = s.fetchBad := rfl
@[simp] theorem State.endStep_fetchWord : (s.endStep).fetchWord = s.fetchWord := rfl

/-! ### Registers -/

/-- A register after a register write. -/
theorem State.reg_setReg (r q : RegIdx) (v : Byte) : (s.setReg r v).reg q = if q = r then v else s.reg q := by
  simp only [State.reg, State.setReg, Vector.getElem_set, Fin.ext_iff, eq_comm]

@[simp] theorem State.reg_setReg_same (r : RegIdx) (v : Byte) : (s.setReg r v).reg r = v := by
  simp [State.reg_setReg]

@[simp] theorem State.reg_setReg_other {r q : RegIdx} (v : Byte) (h : q ≠ r) : (s.setReg r v).reg q = s.reg q := by
  simp [State.reg_setReg, h]

/-! ### The call stack -/

/-- A stack entry after a push. -/
theorem State.entry_push (v : Word) (h : s.sp.val < 16) (k : Fin 16) :
    (s.push v h).stack[k.val] = if k.val = s.sp.val then v else s.stack[k.val] := by
  simp only [State.push, Vector.getElem_set, eq_comm]

/-- What the top is, as an entry of the stack. -/
theorem State.top_eq (h : 0 < s.sp.val) : s.top h = s.stack[s.sp.val - 1]'(by omega) := rfl

end Sys2Proof.Machine
end

