-- ==== Sys2Proof/Laws/Ops.lean ====
section
/-! SUPPORT. For each shared operation, once, everything it can do: the lemmas to cite instead of unfolding it. -/

namespace Sys2Proof.Machine

/-! ### The phases of a step -/

theorem State.fetchBad_iff (s : State) : s.fetchBad = true ↔ 4096 ≤ s.pc.toNat + 1 := by
  unfold State.fetchBad; exact decide_eq_true_iff

theorem State.fetchBad_false_iff (s : State) : s.fetchBad = false ↔ s.pc.toNat + 1 < 4096 := by
  rw [← Bool.not_eq_true, State.fetchBad_iff, Nat.not_le]

theorem finishStep_next_iff (o : Host.Outcome State Fault Refusal) (t : State) :
    finishStep o = .next t ↔ ∃ u, o = .next u ∧ t = u.endStep := by
  cases o <;> simp [finishStep, eq_comm]

theorem finishStep_fault_iff (o : Host.Outcome State Fault Refusal) (f : Fault) :
    finishStep o = .fault f ↔ o = .fault f := by
  cases o <;> simp [finishStep]

theorem finishStep_refused_iff (o : Host.Outcome State Fault Refusal) (r : Refusal) :
    finishStep o = .refused r ↔ o = .refused r := by
  cases o <;> simp [finishStep]

/-- A step whose fetch is in bounds is the execute phase of its word, finished. -/
theorem step_of_fetch {s : State} (h : s.fetchBad = false) :
    step s = finishStep (execDecoded (decodeWord s.fetchWord) s.beginStep) := by
  simp [step, h]

/-- Everything a completed step can be (40_step_cycle.md R130). -/
theorem step_next_iff (s t : State) :
    step s = .next t ↔ s.fetchBad = false ∧
      ∃ u, execDecoded (decodeWord s.fetchWord) s.beginStep = .next u ∧ t = u.endStep := by
  cases h : s.fetchBad
  · simp [step_of_fetch h, finishStep_next_iff]
  · simp [step, h, halt]

/-- Everything a halting step can be (60_exceptions.md R261). -/
theorem step_fault_iff (s : State) (f : Fault) :
    step s = .fault f ↔ (s.fetchBad = true ∧ f = .fetchOutOfBounds s.pc) ∨
      (s.fetchBad = false ∧ execDecoded (decodeWord s.fetchWord) s.beginStep = .fault f) := by
  cases h : s.fetchBad
  · simp [step_of_fetch h, finishStep_fault_iff]
  · simp [step, h, halt, eq_comm]

/-- A timer after a tick (40_step_cycle.md R136). -/
theorem tickTimer_toNat (t : Byte) : (tickTimer t).toNat = t.toNat - 1 := by
  unfold tickTimer
  by_cases h : 0 < t
  · rw [if_pos h]
    have h1 : 0 < t.toNat := by simpa [BitVec.lt_def] using h
    bv_omega
  · rw [if_neg h]
    have h1 : ¬ 0 < t.toNat := by simpa [BitVec.lt_def] using h
    omega

/-! ### Operands -/

theorem zextAddr_toNat (a : Addr) : (zextAddr a).toNat = a.toNat := by
  simp only [zextAddr, BitVec.toNat_setWidth]; omega

theorem zextByte_toNat (b : Byte) : (zextByte b).toNat = b.toNat := by
  simp only [zextByte, BitVec.toNat_setWidth]; omega

theorem State.dataBad_iff (s : State) (k : Nat) : s.dataBad k = true ↔ 0 < k ∧ 4095 < s.I.toNat + k - 1 := by
  simp [State.dataBad]

/-- The guarded access completes iff its bytes lie in memory, and then as its state says. -/
theorem withData_next_iff (i : Instr) (k : Nat) (s t u : State) :
    withData i k s t = .next u ↔ s.dataBad k = false ∧ u = t := by
  cases h : s.dataBad k <;> simp [withData, h, halt, eq_comm]

/-- The guarded access halts iff a byte of it lies outside memory (60_exceptions.md R266). -/
theorem withData_fault_iff (i : Instr) (k : Nat) (s t : State) (f : Fault) :
    withData i k s t = .fault f ↔ s.dataBad k = true ∧ f = .dataOutOfBounds s.pc (encode i) s.I := by
  cases h : s.dataBad k <;> simp [withData, h, halt, eq_comm]

theorem withData_ne_refused (i : Instr) (k : Nat) (s t : State) (r : Refusal) : withData i k s t ≠ .refused r := by
  cases h : s.dataBad k <;> simp [withData, h, halt]

/-- The keypad skip with a key index: a skip on the key's level (45_keypad_timers.md R240, R241). -/
theorem skipIfKey_of_lt (i : Instr) (x : RegIdx) (b : Bool) (s : State) (h : (s.reg x).toNat < 16) :
    skipIfKey i x b s = .next (s.advance (if s.key ⟨(s.reg x).toNat, h⟩ == b then 4 else 2)) := by
  simp [skipIfKey, h, skipIf]

/-- The keypad skip without a key index: a halt (60_exceptions.md R267). -/
theorem skipIfKey_of_ge (i : Instr) (x : RegIdx) (b : Bool) (s : State) (h : ¬ (s.reg x).toNat < 16) :
    skipIfKey i x b s = .fault (.keyIndexOutOfRange s.pc (encode i) (s.reg x)) := by
  simp [skipIfKey, h, halt]

/-- The registers a range names: exactly those up to X. -/
theorem mem_regsUpTo (x r : RegIdx) : r ∈ regsUpTo x ↔ r ≤ x := by
  revert x r; decide

theorem regsUpTo_nodup (x : RegIdx) : (regsUpTo x).Nodup :=
  (List.nodup_finRange 16).sublist (List.take_sublist _ _)

/-- The least pressed key, where some key is pressed (45_keypad_timers.md R242). -/
theorem State.lowestKey_eq_some (s : State) (k : Fin 16) (hk : s.key k = true) (hj : ∀ j, j < k → s.key j = false) :
    s.lowestKey = some k := by
  unfold State.lowestKey
  rw [List.find?_eq_some_iff_getElem]
  refine ⟨hk, k.val, by simp, by simp, fun j hjk => ?_⟩
  simpa using hj ⟨j, by omega⟩ (by simpa [Fin.lt_def] using hjk)

theorem State.lowestKey_eq_none (s : State) (h : ∀ k, s.key k = false) : s.lowestKey = none := by
  simp [State.lowestKey, h]

/-! ### Runs of loads and stores -/

/-- A byte after a run of stores (43_index_memory.md R204). -/
theorem byteAt_storeFold (s : State) (rs : List RegIdx) (m : Memory) (a : Nat) :
    Memory.byteAt (rs.foldl (fun m i => m.set (s.dataAddr i.val) (s.reg i)) m) a =
      match rs.reverse.find? (fun i => s.dataAddr i.val == a) with
      | some i => s.reg i
      | none => m.byteAt a := by
  induction rs generalizing m with
  | nil => rfl
  | cons r rs ih =>
    rw [List.foldl_cons, ih, List.reverse_cons, List.find?_append]
    cases hf : rs.reverse.find? (fun i => s.dataAddr i.val == a) with
    | some i => rfl
    | none =>
      simp only [Option.none_or, Memory.byteAt_set]
      by_cases h : s.dataAddr r.val = a <;> simp [h]

/-- A byte of the stored range after a run of stores. -/
theorem byteAt_storeRange_mem (s : State) (rs : List RegIdx) (i : RegIdx) (h : i ∈ rs) :
    Memory.byteAt (storeRange s rs) (s.dataAddr i.val) = s.reg i := by
  rw [storeRange, byteAt_storeFold]
  cases hf : rs.reverse.find? (fun j => s.dataAddr j.val == s.dataAddr i.val) with
  | none => simp [List.find?_eq_none] at hf; exact absurd rfl (hf i h)
  | some j =>
    have := List.find?_some hf
    simp [State.dataAddr] at this
    rw [Fin.ext this]

/-- A byte outside the stored range after a run of stores. -/
theorem byteAt_storeRange_other (s : State) (rs : List RegIdx) (a : Nat) (h : ∀ i ∈ rs, s.dataAddr i.val ≠ a) :
    Memory.byteAt (storeRange s rs) a = s.mem.byteAt a := by
  rw [storeRange, byteAt_storeFold]
  cases hf : rs.reverse.find? (fun j => s.dataAddr j.val == a) with
  | none => rfl
  | some j =>
    have h1 := List.find?_some hf
    have h2 := List.mem_of_find?_eq_some hf
    simp at h1 h2
    exact absurd h1 (h j h2)

theorem wf_storeRange (s : State) (rs : List RegIdx) (hm : s.mem.wf = true)
    (h : ∀ i ∈ rs, s.dataAddr i.val < 4096) : (storeRange s rs).wf = true := by
  unfold storeRange
  generalize s.mem = m at hm
  induction rs generalizing m with
  | nil => exact hm
  | cons r rs ih =>
    exact ih (fun i hi => h i (by simp [hi])) _ (Memory.wf_set _ _ _ hm (h r (by simp)))

/-- A run of loads changes registers only. -/
theorem loadRange_eq (s : State) (rs : List RegIdx) :
    ∃ v, loadRange s rs = { s with x := v } ∧ ∀ q : RegIdx,
      v[q.val] = if q ∈ rs then s.mem.byteAt (s.dataAddr q.val) else s.reg q := by
  have key : ∀ (rs : List RegIdx) (w : Vector Byte 16), ∃ v,
      rs.foldl (fun t i => State.setReg t i (t.mem.byteAt (t.dataAddr i.val))) { s with x := w } = { s with x := v } ∧
        ∀ q : RegIdx, v[q.val] = if q ∈ rs then s.mem.byteAt (s.dataAddr q.val) else w[q.val] := by
    intro rs
    induction rs with
    | nil => intro w; exact ⟨w, rfl, by simp⟩
    | cons r rs ih =>
      intro w
      obtain ⟨v, hv, hq⟩ := ih (w.set r.val (s.mem.byteAt (s.dataAddr r.val)))
      refine ⟨v, hv, fun q => ?_⟩
      rw [hq, Vector.getElem_set]
      by_cases h1 : q ∈ rs
      · simp [h1]
      · by_cases h2 : q = r
        · subst h2; simp
        · have : ¬ r.val = q.val := fun h => h2 (Fin.ext h.symm)
          simp [h1, h2, this]
  exact key rs s.x

/-! ### The draw -/

/-- The pixel of `(px, py)` is one the row toggles: it lies under a set bit of the sprite row. -/
def rowCovers (b ox oy : Byte) (row : Nat) (cols : List Nat) (px : Fin 64) (py : Fin 32) : Bool :=
  cols.any (fun col => spriteBit b col && decide (px = pixelX ox col) && decide (py = pixelY oy row))

/-- Two columns of a sprite row are never the same pixel column (44_display.md R222). -/
theorem pixelX_inj (ox : Byte) {c d : Nat} (hc : c < 8) (hd : d < 8) (h : pixelX ox c = pixelX ox d) : c = d := by
  simp only [pixelX, Fin.ext_iff, Fin.val_ofNat] at h
  omega

/-- Two rows of a sprite are never the same pixel row (44_display.md R222). -/
theorem pixelY_inj (oy : Byte) {c d : Nat} (hc : c < 16) (hd : d < 16) (h : pixelY oy c = pixelY oy d) : c = d := by
  simp only [pixelY, Fin.ext_iff, Fin.val_ofNat] at h
  omega

/-- A canvas after some columns of a row: exactly the pixels under set bits inverted, and the flag raised iff one of them
was set. -/
theorem drawCols_spec (b ox oy : Byte) (row : Nat) (cols : List Nat) (hn : cols.Nodup) (h8 : ∀ c ∈ cols, c < 8)
    (c : Canvas) :
    (∀ px py, (cols.foldl (drawPixel b ox oy row) c).fb.pixel px py =
      (c.fb.pixel px py ^^ rowCovers b ox oy row cols px py)) ∧
    ((cols.foldl (drawPixel b ox oy row) c).vf =
      if ∃ px py, rowCovers b ox oy row cols px py = true ∧ c.fb.pixel px py = true then 1 else c.vf) := by
  induction cols generalizing c with
  | nil => simp [rowCovers]
  | cons d cols ih =>
    rw [List.nodup_cons] at hn
    obtain ⟨ihp, ihv⟩ := ih hn.2 (fun c hc => h8 c (by simp [hc])) (drawPixel b ox oy row c d)
    have hd : d < 8 := h8 d (by simp)
    have hdis : ∀ px py, px = pixelX ox d → rowCovers b ox oy row cols px py = false := by
      intro px py hpx
      by_contra hcon
      simp only [Bool.not_eq_false, rowCovers, List.any_eq_true, Bool.and_eq_true, decide_eq_true_eq] at hcon
      obtain ⟨e, he, ⟨_, h2⟩, _⟩ := hcon
      have : d = e := pixelX_inj ox hd (h8 e (by simp [he])) (hpx ▸ h2)
      exact hn.1 (this ▸ he)
    have hsplit : ∀ px py, rowCovers b ox oy row (d :: cols) px py =
        ((spriteBit b d && decide (px = pixelX ox d) && decide (py = pixelY oy row)) ||
          rowCovers b ox oy row cols px py) := by
      intro px py; simp [rowCovers]
    rw [List.foldl_cons]
    by_cases hb : spriteBit b d = true
    · have hfb : ∀ px py, (drawPixel b ox oy row c d).fb.pixel px py =
          (c.fb.pixel px py ^^ (decide (px = pixelX ox d) && decide (py = pixelY oy row))) := by
        intro px py; simp [drawPixel, hb, Framebuffer.pixel_toggle]
      constructor
      · intro px py
        rw [ihp, hfb, hsplit, hb]
        by_cases hpx : px = pixelX ox d
        · rw [hdis px py hpx]; simp
        · simp [hpx]
      · rw [ihv]
        have hiff : (∃ px py, rowCovers b ox oy row cols px py = true ∧
              (drawPixel b ox oy row c d).fb.pixel px py = true) ↔
            ∃ px py, rowCovers b ox oy row cols px py = true ∧ c.fb.pixel px py = true := by
          constructor <;>
          · rintro ⟨px, py, h1, h2⟩
            refine ⟨px, py, h1, ?_⟩
            have hne : px ≠ pixelX ox d := fun h => by simp [hdis px py h] at h1
            simpa [hfb, hne] using h2
        have hvf : (drawPixel b ox oy row c d).vf =
            if c.fb.pixel (pixelX ox d) (pixelY oy row) = true then 1 else c.vf := by
          simp [drawPixel, hb]
        simp only [hiff, hvf]
        by_cases h1 : ∃ px py, rowCovers b ox oy row cols px py = true ∧ c.fb.pixel px py = true
        · obtain ⟨px, py, h2, h3⟩ := h1
          rw [if_pos ⟨px, py, h2, h3⟩, if_pos ⟨px, py, by simp [hsplit, h2], h3⟩]
        · rw [if_neg h1]
          by_cases h2 : c.fb.pixel (pixelX ox d) (pixelY oy row) = true
          · rw [if_pos h2, if_pos ⟨_, _, by simp [hsplit, hb], h2⟩]
          · rw [if_neg h2, if_neg]
            rintro ⟨px, py, h3, h4⟩
            rw [hsplit] at h3
            simp only [Bool.or_eq_true, Bool.and_eq_true, decide_eq_true_eq] at h3
            rcases h3 with ⟨⟨_, rfl⟩, rfl⟩ | h3
            · exact h2 h4
            · exact h1 ⟨px, py, h3, h4⟩
    · have hsame : drawPixel b ox oy row c d = c := by simp [drawPixel, hb]
      have hcov : ∀ px py, rowCovers b ox oy row (d :: cols) px py = rowCovers b ox oy row cols px py := by
        intro px py; simp [hsplit, hb]
      rw [hsame] at ihp ihv ⊢
      exact ⟨fun px py => by rw [ihp, hcov], by simp only [hcov]; exact ihv⟩

/-- The pixel of `(px, py)` is one the sprite toggles. -/
def spriteCovers (m : Memory) (a : Nat) (ox oy : Byte) (rows : List Nat) (px : Fin 64) (py : Fin 32) : Bool :=
  rows.any (fun row => rowCovers (m.byteAt (a + row)) ox oy row (List.range 8) px py)

/-- A canvas after some rows of a sprite (44_display.md R221, R222): exactly the pixels under set bits inverted, and the
flag raised iff one of them was set. -/
theorem drawRows_spec (m : Memory) (a : Nat) (ox oy : Byte) (rows : List Nat) (hn : rows.Nodup)
    (h16 : ∀ r ∈ rows, r < 16) (c : Canvas) :
    (∀ px py, (rows.foldl (drawRow m a ox oy) c).fb.pixel px py =
      (c.fb.pixel px py ^^ spriteCovers m a ox oy rows px py)) ∧
    ((rows.foldl (drawRow m a ox oy) c).vf =
      if ∃ px py, spriteCovers m a ox oy rows px py = true ∧ c.fb.pixel px py = true then 1 else c.vf) := by
  induction rows generalizing c with
  | nil => simp [spriteCovers]
  | cons r rows ih =>
    rw [List.nodup_cons] at hn
    obtain ⟨ihp, ihv⟩ := ih hn.2 (fun c hc => h16 c (by simp [hc])) (drawRow m a ox oy c r)
    obtain ⟨hp, hv⟩ := drawCols_spec (m.byteAt (a + r)) ox oy r (List.range 8) List.nodup_range
      (fun c hc => by simpa using hc) c
    have hfb : ∀ px py, (drawRow m a ox oy c r).fb.pixel px py =
        (c.fb.pixel px py ^^ rowCovers (m.byteAt (a + r)) ox oy r (List.range 8) px py) := hp
    have hrow : ∀ (b : Byte) (q : Nat) (cols : List Nat) (px : Fin 64) (py : Fin 32),
        rowCovers b ox oy q cols px py = true → py = pixelY oy q := by
      intro b q cols px py h
      simp only [rowCovers, List.any_eq_true, Bool.and_eq_true, decide_eq_true_eq] at h
      obtain ⟨_, _, _, h⟩ := h
      exact h
    have hdis : ∀ px py, rowCovers (m.byteAt (a + r)) ox oy r (List.range 8) px py = true →
        spriteCovers m a ox oy rows px py = false := by
      intro px py h
      by_contra hcon
      simp only [Bool.not_eq_false, spriteCovers, List.any_eq_true] at hcon
      obtain ⟨q, hq, hc⟩ := hcon
      have : r = q := pixelY_inj oy (h16 r (by simp)) (h16 q (by simp [hq])) ((hrow _ _ _ _ _ h).symm.trans (hrow _ _ _ _ _ hc))
      exact hn.1 (this ▸ hq)
    have hsplit : ∀ px py, spriteCovers m a ox oy (r :: rows) px py =
        (rowCovers (m.byteAt (a + r)) ox oy r (List.range 8) px py || spriteCovers m a ox oy rows px py) := by
      intro px py; simp [spriteCovers]
    rw [List.foldl_cons]
    constructor
    · intro px py
      rw [ihp, hfb, hsplit]
      cases h : rowCovers (m.byteAt (a + r)) ox oy r (List.range 8) px py
      · simp
      · simp [hdis px py h]
    · rw [ihv]
      have hvf : (drawRow m a ox oy c r).vf = if ∃ px py, rowCovers (m.byteAt (a + r)) ox oy r (List.range 8) px py = true ∧
          c.fb.pixel px py = true then 1 else c.vf := hv
      have hiff : (∃ px py, spriteCovers m a ox oy rows px py = true ∧ (drawRow m a ox oy c r).fb.pixel px py = true) ↔
          ∃ px py, spriteCovers m a ox oy rows px py = true ∧ c.fb.pixel px py = true := by
        constructor <;>
        · rintro ⟨px, py, h1, h2⟩
          refine ⟨px, py, h1, ?_⟩
          have hne : rowCovers (m.byteAt (a + r)) ox oy r (List.range 8) px py = false := by
            by_contra hcon
            simp [hdis px py (by simpa using hcon)] at h1
          simpa [hfb, hne] using h2
      simp only [hiff, hvf]
      by_cases h1 : ∃ px py, spriteCovers m a ox oy rows px py = true ∧ c.fb.pixel px py = true
      · obtain ⟨px, py, h2, h3⟩ := h1
        rw [if_pos ⟨px, py, h2, h3⟩, if_pos ⟨px, py, by simp [hsplit, h2], h3⟩]
      · rw [if_neg h1]
        congr 1
        apply propext
        constructor
        · rintro ⟨px, py, h2, h3⟩; exact ⟨px, py, by simp [hsplit, h2], h3⟩
        · rintro ⟨px, py, h2, h3⟩
          rw [hsplit, Bool.or_eq_true] at h2
          rcases h2 with h2 | h2
          · exact ⟨px, py, h2, h3⟩
          · exact absurd ⟨px, py, h2, h3⟩ h1

/-- Everything a draw does to its canvas (44_display.md R221, R222). -/
theorem drawSprite_spec (m : Memory) (a : Nat) (ox oy : Byte) (n : Nat) (hn : n ≤ 16) (c : Canvas) :
    (∀ px py, (drawSprite m a ox oy n c).fb.pixel px py =
      (c.fb.pixel px py ^^ spriteCovers m a ox oy (List.range n) px py)) ∧
    ((drawSprite m a ox oy n c).vf =
      if ∃ px py, spriteCovers m a ox oy (List.range n) px py = true ∧ c.fb.pixel px py = true then 1 else c.vf) :=
  drawRows_spec m a ox oy (List.range n) List.nodup_range (fun r hr => by simp at hr; omega) c

/-- Which pixels a sprite covers, as coordinates (44_display.md R223, R224). -/
theorem spriteCovers_iff (m : Memory) (a : Nat) (ox oy : Byte) (n : Nat) (px : Fin 64) (py : Fin 32) :
    spriteCovers m a ox oy (List.range n) px py = true ↔ ∃ row col, row < n ∧ col < 8 ∧
      (m.byteAt (a + row)).getLsbD (7 - col) = true ∧
      px.val = (ox.toNat + col) % 64 ∧ py.val = (oy.toNat + row) % 32 := by
  simp only [spriteCovers, rowCovers, List.any_eq_true, List.mem_range, Bool.and_eq_true, decide_eq_true_eq, spriteBit,
    pixelX, pixelY, Fin.ext_iff, Fin.val_ofNat]
  constructor
  · rintro ⟨row, hr, col, hc, ⟨h1, h2⟩, h3⟩; exact ⟨row, col, hr, hc, h1, h2, h3⟩
  · rintro ⟨row, col, hr, hc, h1, h2, h3⟩; exact ⟨row, hr, col, hc, ⟨h1, h2⟩, h3⟩

end Sys2Proof.Machine
end

