-- ==== Sys2Proof/Laws/PerInstr.lean ====
section
/-! SUPPORT. One fact about every instruction as syntax, a lemma for each constructor: its word selects its own row of the
opcode table (30_encoding.md R105). -/

namespace Sys2Proof.Laws

/-- The word of `i` selects the row of R105 that `i` stands in. -/
def RowMatch.Statement (i : Instr) : Prop :=
  ∃ r, opcodeRows[rowNumber i - 1]? = some r ∧ r.selectedBy (encode i) = true

theorem nibble_and_ones (g : Nibble) : g &&& 0xF#4 = g := by revert g; decide

theorem byte_and_ones (b : Byte) : b &&& 0xFF#8 = b := BitVec.and_allOnes

/-- The group nibble of a format A word. -/
theorem formatA_and (g : Nibble) (nnn : Addr) : formatA g nnn &&& 0xF000#16 = g ++ 0#12 := by
  have h : (0xF000#16 : Word) = 0xF#4 ++ 0#12 := by decide
  rw [h, formatA, BitVec.and_append]
  simp [nibble_and_ones]

/-- The group nibble of a format I word. -/
theorem formatI_and (g : Nibble) (x : RegIdx) (nn : Byte) : formatI g x nn &&& 0xF000#16 = g ++ 0#4 ++ 0#8 := by
  have h : (0xF000#16 : Word) = 0xF#4 ++ 0#4 ++ 0#8 := by decide
  rw [h, formatI, BitVec.and_append, BitVec.and_append]
  simp [nibble_and_ones]

/-- The group nibble and the low byte of a format S word. -/
theorem formatS_and (g : Nibble) (x : RegIdx) (nn : Byte) : formatI g x nn &&& 0xF0FF#16 = g ++ 0#4 ++ nn := by
  have h : (0xF0FF#16 : Word) = 0xF#4 ++ 0#4 ++ 0xFF#8 := by decide
  rw [h, formatI, BitVec.and_append, BitVec.and_append]
  simp [nibble_and_ones, byte_and_ones]

/-- The group nibble and the low nibble of a format R word. -/
theorem formatR_and (g : Nibble) (x y : RegIdx) (n : Nibble) :
    formatR g x y n &&& 0xF00F#16 = g ++ 0#4 ++ 0#4 ++ n := by
  have h : (0xF00F#16 : Word) = 0xF#4 ++ 0#4 ++ 0#4 ++ 0xF#4 := by decide
  rw [h, formatR, BitVec.and_append, BitVec.and_append, BitVec.and_append]
  simp [nibble_and_ones]

/-- The group nibble of a format D word. -/
theorem formatD_and (g : Nibble) (x y : RegIdx) (n : Nibble) :
    formatR g x y n &&& 0xF000#16 = g ++ 0#4 ++ 0#4 ++ 0#4 := by
  have h : (0xF000#16 : Word) = 0xF#4 ++ 0#4 ++ 0#4 ++ 0#4 := by decide
  rw [h, formatR, BitVec.and_append, BitVec.and_append, BitVec.and_append]
  simp [nibble_and_ones]

/-- A row selects a word whose masked bits are its pattern. -/
theorem selected_of_and {mask pattern op w : Word} (h : op &&& mask = w) (hw : w = pattern) :
    (Row.mk mask pattern).selectedBy op = true := by
  simp [Row.selectedBy, h, hw]

theorem RowMatch.cls : RowMatch.Statement (.cls) :=
  ⟨_, rfl, by decide⟩

theorem RowMatch.ret : RowMatch.Statement (.ret) :=
  ⟨_, rfl, by decide⟩

theorem RowMatch.jp (nnn : Addr) : RowMatch.Statement (.jp nnn) :=
  ⟨_, rfl, selected_of_and (formatA_and _ _) (by decide)⟩

theorem RowMatch.call (nnn : Addr) : RowMatch.Statement (.call nnn) :=
  ⟨_, rfl, selected_of_and (formatA_and _ _) (by decide)⟩

theorem RowMatch.seImm (x : RegIdx) (nn : Byte) : RowMatch.Statement (.seImm x nn) :=
  ⟨_, rfl, selected_of_and (formatI_and _ _ _) (by decide)⟩

theorem RowMatch.sneImm (x : RegIdx) (nn : Byte) : RowMatch.Statement (.sneImm x nn) :=
  ⟨_, rfl, selected_of_and (formatI_and _ _ _) (by decide)⟩

theorem RowMatch.seReg (x y : RegIdx) : RowMatch.Statement (.seReg x y) :=
  ⟨_, rfl, selected_of_and (formatR_and _ _ _ _) (by decide)⟩

theorem RowMatch.ldImm (x : RegIdx) (nn : Byte) : RowMatch.Statement (.ldImm x nn) :=
  ⟨_, rfl, selected_of_and (formatI_and _ _ _) (by decide)⟩

theorem RowMatch.addImm (x : RegIdx) (nn : Byte) : RowMatch.Statement (.addImm x nn) :=
  ⟨_, rfl, selected_of_and (formatI_and _ _ _) (by decide)⟩

theorem RowMatch.ldReg (x y : RegIdx) : RowMatch.Statement (.ldReg x y) :=
  ⟨_, rfl, selected_of_and (formatR_and _ _ _ _) (by decide)⟩

theorem RowMatch.orReg (x y : RegIdx) : RowMatch.Statement (.orReg x y) :=
  ⟨_, rfl, selected_of_and (formatR_and _ _ _ _) (by decide)⟩

theorem RowMatch.andReg (x y : RegIdx) : RowMatch.Statement (.andReg x y) :=
  ⟨_, rfl, selected_of_and (formatR_and _ _ _ _) (by decide)⟩

theorem RowMatch.xorReg (x y : RegIdx) : RowMatch.Statement (.xorReg x y) :=
  ⟨_, rfl, selected_of_and (formatR_and _ _ _ _) (by decide)⟩

theorem RowMatch.addReg (x y : RegIdx) : RowMatch.Statement (.addReg x y) :=
  ⟨_, rfl, selected_of_and (formatR_and _ _ _ _) (by decide)⟩

theorem RowMatch.subReg (x y : RegIdx) : RowMatch.Statement (.subReg x y) :=
  ⟨_, rfl, selected_of_and (formatR_and _ _ _ _) (by decide)⟩

theorem RowMatch.shr (x y : RegIdx) : RowMatch.Statement (.shr x y) :=
  ⟨_, rfl, selected_of_and (formatR_and _ _ _ _) (by decide)⟩

theorem RowMatch.subn (x y : RegIdx) : RowMatch.Statement (.subn x y) :=
  ⟨_, rfl, selected_of_and (formatR_and _ _ _ _) (by decide)⟩

theorem RowMatch.shl (x y : RegIdx) : RowMatch.Statement (.shl x y) :=
  ⟨_, rfl, selected_of_and (formatR_and _ _ _ _) (by decide)⟩

theorem RowMatch.sneReg (x y : RegIdx) : RowMatch.Statement (.sneReg x y) :=
  ⟨_, rfl, selected_of_and (formatR_and _ _ _ _) (by decide)⟩

theorem RowMatch.ldI (nnn : Addr) : RowMatch.Statement (.ldI nnn) :=
  ⟨_, rfl, selected_of_and (formatA_and _ _) (by decide)⟩

theorem RowMatch.jpV0 (nnn : Addr) : RowMatch.Statement (.jpV0 nnn) :=
  ⟨_, rfl, selected_of_and (formatA_and _ _) (by decide)⟩

theorem RowMatch.rnd (x : RegIdx) (nn : Byte) : RowMatch.Statement (.rnd x nn) :=
  ⟨_, rfl, selected_of_and (formatI_and _ _ _) (by decide)⟩

theorem RowMatch.drw (x y : RegIdx) (n : Nibble) : RowMatch.Statement (.drw x y n) :=
  ⟨_, rfl, selected_of_and (formatD_and _ _ _ _) (by decide)⟩

theorem RowMatch.skp (x : RegIdx) : RowMatch.Statement (.skp x) :=
  ⟨_, rfl, selected_of_and (formatS_and _ _ _) (by decide)⟩

theorem RowMatch.sknp (x : RegIdx) : RowMatch.Statement (.sknp x) :=
  ⟨_, rfl, selected_of_and (formatS_and _ _ _) (by decide)⟩

theorem RowMatch.ldVxDt (x : RegIdx) : RowMatch.Statement (.ldVxDt x) :=
  ⟨_, rfl, selected_of_and (formatS_and _ _ _) (by decide)⟩

theorem RowMatch.ldVxK (x : RegIdx) : RowMatch.Statement (.ldVxK x) :=
  ⟨_, rfl, selected_of_and (formatS_and _ _ _) (by decide)⟩

theorem RowMatch.ldDtVx (x : RegIdx) : RowMatch.Statement (.ldDtVx x) :=
  ⟨_, rfl, selected_of_and (formatS_and _ _ _) (by decide)⟩

theorem RowMatch.ldStVx (x : RegIdx) : RowMatch.Statement (.ldStVx x) :=
  ⟨_, rfl, selected_of_and (formatS_and _ _ _) (by decide)⟩

theorem RowMatch.addI (x : RegIdx) : RowMatch.Statement (.addI x) :=
  ⟨_, rfl, selected_of_and (formatS_and _ _ _) (by decide)⟩

theorem RowMatch.ldF (x : RegIdx) : RowMatch.Statement (.ldF x) :=
  ⟨_, rfl, selected_of_and (formatS_and _ _ _) (by decide)⟩

theorem RowMatch.ldB (x : RegIdx) : RowMatch.Statement (.ldB x) :=
  ⟨_, rfl, selected_of_and (formatS_and _ _ _) (by decide)⟩

theorem RowMatch.storeRegs (x : RegIdx) : RowMatch.Statement (.storeRegs x) :=
  ⟨_, rfl, selected_of_and (formatS_and _ _ _) (by decide)⟩

theorem RowMatch.loadRegs (x : RegIdx) : RowMatch.Statement (.loadRegs x) :=
  ⟨_, rfl, selected_of_and (formatS_and _ _ _) (by decide)⟩

end Sys2Proof.Laws
end

