-- ==== Sys2Proof/Tests/Slice0.lean ====
section
/-! SUPPORT. Tests: well-formedness refuses, decoding of words written out from the spec's encodings, single steps of the
spec's own examples and vectors (95_test_vectors.md; the number of a vector stands in each comment), and, for every
obligation with hypotheses, concrete data that meet them. -/

namespace Sys2Proof.Tests

open Sys2Proof Sys2Proof.Machine

/-! ### Helpers -/

/-- The outcome is a next state with the property. -/
def nx (o : Host.Outcome State Fault Refusal) (p : State → Bool) : Bool :=
  match o with
  | .next t => p t
  | .fault _ => false
  | .refused _ => false

/-- The outcome is this halt. -/
def halts (o : Host.Outcome State Fault Refusal) (f : Fault) : Bool :=
  match o with
  | .next _ => false
  | .fault g => decide (g = f)
  | .refused _ => false

theorem next_of {o : Host.Outcome State Fault Refusal} (h : nx o (fun _ => true) = true) : ∃ t, o = .next t := by
  cases o with
  | next t => exact ⟨t, rfl⟩
  | fault f => cases h
  | refused r => cases h

theorem fault_of {o : Host.Outcome State Fault Refusal} {f : Fault} (h : halts o f = true) : o = .fault f := by
  cases o with
  | next t => cases h
  | fault g => exact congrArg _ (of_decide_eq_true h)
  | refused r => cases h

/-- Registers of the reset state, set. -/
def regs (l : List (RegIdx × Byte)) (s : State := State.reset) : State := l.foldl (fun t p => t.setReg p.1 p.2) s

/-- Bytes in memory. -/
def bytes (a : Nat) (l : List Byte) (s : State) : State := s.setMem (s.mem.setList a l)

/-- The keys whose bit is set, pressed in the coming step. -/
def pressed (mask : Word) (s : State) : State :=
  { s with inputs := [⟨some (Vector.ofFn fun k => mask.getLsbD k.val), none⟩] }

/-- One step of the word, at `pc` of the state. -/
def run1 (w : Nat) (s : State) : Host.Outcome State Fault Refusal := step (s.withFetchWord 16 w)

/-- Pixels, all set or not. -/
def lit (s : State) (l : List (Fin 64 × Fin 32)) : Bool := l.all fun p => s.fb.pixel p.1 p.2

/-- How many pixels are set. -/
def count (s : State) : Nat :=
  ((List.finRange 32).map fun py => ((List.finRange 64).filter fun px => s.fb.pixel px py).length).sum

/-! ### Well-formedness refuses -/

theorem test_wf_register_digit : operandsWf .SE [.v 16, .num 0] = false := by decide
theorem test_wf_register_digit_y : operandsWf .XOR [.v 15, .v 16] = false := by decide
theorem test_wf_nn : operandsWf .LD [.v 0, .num 256] = false := by decide
theorem test_wf_nnn : operandsWf .CALL [.num 4096] = false := by decide
theorem test_wf_n : operandsWf .DRW [.v 0, .v 1, .num 16] = false := by decide
theorem test_wf_jp_only_v0 : operandsWf .JP [.v 1, .num 0x300] = false := by decide
theorem test_wf_operand_form : operandsWf .LD [.DT, .num 3] = false := by decide
theorem test_wf_operand_count : operandsWf .CLS [.v 0] = false := by decide
theorem test_wf_leftover_label : operandsWf .JP [.lab 0] = false := by decide
theorem test_wf_db : (AsmItem.db [0xFF, 0x100]).wf = false := by decide
theorem test_wf_dw : (AsmItem.dw 0x10000).wf = false := by decide
theorem test_wf_instr_item : (AsmItem.instr .SKP [.v 16]).wf = false := by decide
theorem test_wf_fields_nnn : Fields.wf ⟨1, 2, 3, 4, 0x34, 0x235⟩ = false := by decide
theorem test_wf_fields_nn : Fields.wf ⟨1, 2, 3, 4, 0x35, 0x235⟩ = false := by decide
theorem test_wf_accepts : operandsWf .LD [.memI, .v 15] = true ∧ operandsWf .JP [.v 0, .num 0xFFF] = true ∧
    operandsWf .SHR [.v 2, .v 15] = true ∧ (AsmItem.label 3).wf = true ∧
    Fields.wf ⟨1, 2, 3, 4, 0x34, 0x234⟩ = true := by decide
/-- The source text of program P1, and its byte image. -/
theorem test_assemble_P1 :
    assemble [.instr .LD [.v 0, .num 5], .instr .LD [.v 1, .num 0], .label 0, .instr .ADD [.v 1, .num 3],
      .instr .ADD [.v 0, .num 0xFF], .instr .SE [.v 0, .num 0], .instr .JP [.lab 0], .label 1, .instr .JP [.lab 1]] =
    some [0x60, 0x05, 0x61, 0x00, 0x71, 0x03, 0x70, 0xFF, 0x30, 0x00, 0x12, 0x04, 0x12, 0x0C] := by decide

/-! ### Decoding: one word of each row, bit by bit from R102 and R105 -/

theorem test_decode_cls : decodeWord 0b0000000011100000 = .instr .cls := by decide
theorem test_decode_ret : decodeWord 0b0000000011101110 = .instr .ret := by decide
theorem test_decode_jp : decodeWord 0b0001001000110100 = .instr (.jp 0x234) := by decide
theorem test_decode_call : decodeWord 0b0010001101000101 = .instr (.call 0x345) := by decide
theorem test_decode_seImm : decodeWord 0b0011010111011100 = .instr (.seImm 5 0xDC) := by decide
theorem test_decode_sneImm : decodeWord 0b0100010111011100 = .instr (.sneImm 5 0xDC) := by decide
theorem test_decode_seReg : decodeWord 0b0101000100100000 = .instr (.seReg 1 2) := by decide
theorem test_decode_ldImm : decodeWord 0b0110101000101111 = .instr (.ldImm 10 0x2F) := by decide
theorem test_decode_addImm : decodeWord 0b0111001100100000 = .instr (.addImm 3 0x20) := by decide
theorem test_decode_ldReg : decodeWord 0b1000000000010000 = .instr (.ldReg 0 1) := by decide
theorem test_decode_orReg : decodeWord 0b1000111100010001 = .instr (.orReg 15 1) := by decide
theorem test_decode_andReg : decodeWord 0b1000000111110010 = .instr (.andReg 1 15) := by decide
theorem test_decode_xorReg : decodeWord 0b1000010101100011 = .instr (.xorReg 5 6) := by decide
theorem test_decode_addReg : decodeWord 0b1000100001110100 = .instr (.addReg 8 7) := by decide
theorem test_decode_subReg : decodeWord 0b1000000100100101 = .instr (.subReg 1 2) := by decide
theorem test_decode_shr : decodeWord 0b1000001011110110 = .instr (.shr 2 15) := by decide
theorem test_decode_subn : decodeWord 0b1000000100100111 = .instr (.subn 1 2) := by decide
theorem test_decode_shl : decodeWord 0b1000001000001110 = .instr (.shl 2 0) := by decide
theorem test_decode_sneReg : decodeWord 0b1001000100100000 = .instr (.sneReg 1 2) := by decide
theorem test_decode_ldI : decodeWord 0b1010001011110000 = .instr (.ldI 0x2F0) := by decide
theorem test_decode_jpV0 : decodeWord 0b1011001100000000 = .instr (.jpV0 0x300) := by decide
theorem test_decode_rnd : decodeWord 0b1100001100001111 = .instr (.rnd 3 0x0F) := by decide
theorem test_decode_drw : decodeWord 0b1101000100101111 = .instr (.drw 1 2 15) := by decide
theorem test_decode_skp : decodeWord 0b1110001110011110 = .instr (.skp 3) := by decide
theorem test_decode_sknp : decodeWord 0b1110001110100001 = .instr (.sknp 3) := by decide
theorem test_decode_ldVxDt : decodeWord 0b1111001100000111 = .instr (.ldVxDt 3) := by decide
theorem test_decode_ldVxK : decodeWord 0b1111000100001010 = .instr (.ldVxK 1) := by decide
theorem test_decode_ldDtVx : decodeWord 0b1111111100010101 = .instr (.ldDtVx 15) := by decide
theorem test_decode_ldStVx : decodeWord 0b1111000000011000 = .instr (.ldStVx 0) := by decide
theorem test_decode_addI : decodeWord 0b1111001000011110 = .instr (.addI 2) := by decide
theorem test_decode_ldF : decodeWord 0b1111100000101001 = .instr (.ldF 8) := by decide
theorem test_decode_ldB : decodeWord 0b1111000000110011 = .instr (.ldB 0) := by decide
theorem test_decode_storeRegs : decodeWord 0b1111010001010101 = .instr (.storeRegs 4) := by decide
theorem test_decode_loadRegs : decodeWord 0b1111001001100101 = .instr (.loadRegs 2) := by decide
/-- E3 to E9: words of no row, each under its own name. -/
theorem test_decode_unrecognized : [0x0000#16, 0x0123, 0x5121, 0x9121, 0x8008, 0x800F, 0xE000, 0xE09F, 0xE1A0, 0xF0FF,
    0xF000, 0xF075, 0xF01F, 0x00E1, 0x00EF, 0x00FE, 0x01E0].all (fun w => decide (decodeWord w = .unrecognized w)) = true := by decide
/-- E14: the byte at the lower address is the high one; the rest is left. -/
theorem test_decode_bytes : decodeBytes [0x2F, 0x6A, 0x99] = .word (.instr (.call 0xF6A)) [0x99] ∧
    decodeBytes [0x2F] = .truncated [0x2F] := by decide

/-! ### Single steps: the spec's examples and vectors -/

/-- F1. -/
theorem test_jp : nx (run1 0x1234 .reset) (fun t => t.pc = 0x234 && t.sp = 0) = true := by decide
/-- S2. -/
theorem test_call : nx (run1 0x2345 .reset) (fun t => t.pc = 0x345 && t.sp = 1 && t.stack[0] = 0x200) = true := by decide
/-- F9: the timers do not tick, since nothing changes. -/
theorem test_call_overflow : halts (run1 0x2300 { State.reset with sp := 16 }) (.stackOverflow 0x200 0x2300) = true := by
  decide
/-- F10. -/
theorem test_ret : nx (run1 0x00EE { State.reset with sp := 1, pc := 0x400, stack := State.reset.stack.set 0 0x2F0 })
    (fun t => t.pc = 0x2F2 && t.sp = 0 && t.stack[0] = 0x2F0) = true := by decide
/-- F11. -/
theorem test_ret_underflow : halts (run1 0x00EE .reset) (.stackUnderflow 0x200 0x00EE) = true := by decide
/-- F6: the sum is not reduced. -/
theorem test_jpV0 : nx (run1 0xBFFF (regs [(0, 0xFF)])) (fun t => t.pc = 0x10FE) = true := by decide
/-- S1. -/
theorem test_seImm_taken : nx (run1 0x35DC (regs [(5, 0xDC)])) (fun t => t.pc = 0x204) = true := by decide
/-- F12. -/
theorem test_seImm : nx (run1 0x35DC (regs [(5, 0xDD)])) (fun t => t.pc = 0x202) = true := by decide
/-- F14. -/
theorem test_sneImm_taken : nx (run1 0x4500 (regs [(5, 0xDC)])) (fun t => t.pc = 0x204) = true := by decide
/-- F13. -/
theorem test_sneImm : nx (run1 0x45DC (regs [(5, 0xDC)])) (fun t => t.pc = 0x202) = true := by decide
/-- F15, F16. -/
theorem test_seReg : nx (run1 0x5120 (regs [(1, 7), (2, 7)])) (fun t => t.pc = 0x204) = true ∧
    nx (run1 0x5120 (regs [(1, 7), (2, 8)])) (fun t => t.pc = 0x202) = true := by decide
/-- F18, F19. -/
theorem test_sneReg : nx (run1 0x9120 (regs [(1, 7), (2, 8)])) (fun t => t.pc = 0x204) = true ∧
    nx (run1 0x9330 (regs [(3, 9)])) (fun t => t.pc = 0x202) = true := by decide
/-- A1. -/
theorem test_ldImm : nx (run1 0x6A2F .reset) (fun t => t.reg 10 = 0x2F && t.pc = 0x202) = true := by decide
/-- A4: no carry is recorded. -/
theorem test_addImm : nx (run1 0x7301 (regs [(3, 0xFF), (15, 0x55)])) (fun t => t.reg 3 = 0 && t.reg 15 = 0x55) = true := by
  decide
/-- A5. -/
theorem test_ldReg : nx (run1 0x8010 (regs [(1, 0x55)])) (fun t => t.reg 0 = 0x55 && t.reg 1 = 0x55) = true := by decide
/-- A6: VF stays. -/
theorem test_orReg : nx (run1 0x8011 (regs [(0, 0xF0), (1, 0x0F), (15, 9)]))
    (fun t => t.reg 0 = 0xFF && t.reg 15 = 9) = true := by decide
/-- A7. -/
theorem test_andReg : nx (run1 0x8012 (regs [(0, 0xF3), (1, 0x3F)])) (fun t => t.reg 0 = 0x33) = true := by decide
/-- A8. -/
theorem test_xorReg : nx (run1 0x8013 (regs [(0, 0xFF), (1, 0x0F)])) (fun t => t.reg 0 = 0xF0) = true := by decide
/-- S3. -/
theorem test_addReg : nx (run1 0x8874 (regs [(7, 128), (8, 128)])) (fun t => t.reg 8 = 0 && t.reg 15 = 1) = true := by decide
/-- A13: the flag, then the sum over it. -/
theorem test_addReg_vf : nx (run1 0x8F14 (regs [(15, 200), (1, 100)])) (fun t => t.reg 15 = 101) = true := by decide
/-- A18. -/
theorem test_subReg : nx (run1 0x8015 (regs [(0, 3), (1, 5)])) (fun t => t.reg 0 = 0xFE && t.reg 15 = 0) = true := by decide
/-- A19: equal operands do not borrow. -/
theorem test_subReg_equal : nx (run1 0x8015 (regs [(0, 5), (1, 5)])) (fun t => t.reg 0 = 0 && t.reg 15 = 1) = true := by
  decide
/-- S4: Y is ignored. -/
theorem test_shr : nx (run1 0x82F6 (regs [(2, 0x55)])) (fun t => t.reg 2 = 0x2A && t.reg 15 = 1) = true := by decide
/-- A28. -/
theorem test_shr_vf : nx (run1 0x8F06 (regs [(15, 0xFF)])) (fun t => t.reg 15 = 0) = true := by decide
/-- A29. -/
theorem test_subn : nx (run1 0x8017 (regs [(0, 5), (1, 3)])) (fun t => t.reg 0 = 0xFE && t.reg 15 = 0) = true := by decide
/-- A33: the flag is written first, VF read after it. -/
theorem test_subn_vf : nx (run1 0x80F7 (regs [(0, 10), (15, 3)])) (fun t => t.reg 0 = 246 && t.reg 15 = 0) = true := by decide
/-- A37. -/
theorem test_shl : nx (run1 0x820E (regs [(2, 0x81)])) (fun t => t.reg 2 = 0x02 && t.reg 15 = 1) = true := by decide
/-- A38. -/
theorem test_shl_vf : nx (run1 0x8F0E (regs [(15, 0xFF)])) (fun t => t.reg 15 = 2) = true := by decide
/-- A40. -/
theorem test_rnd : nx (run1 0xC30F { State.reset with inputs := [⟨none, some 0xB7⟩] }) (fun t => t.reg 3 = 7) = true := by
  decide
/-- M1. -/
theorem test_ldI : nx (run1 0xA2F0 .reset) (fun t => t.I = 0x2F0) = true := by decide
/-- M3, M4. -/
theorem test_addI : nx (run1 0xF01E (regs [(0, 1), (15, 7)] { State.reset with I := 0xFFF }))
    (fun t => t.I = 0x1000 && t.reg 15 = 7) = true ∧
    nx (run1 0xF01E (regs [(0, 1)] { State.reset with I := 0xFFFF })) (fun t => t.I = 0) = true := by decide
/-- S6, M7. -/
theorem test_ldF : nx (run1 0xF829 (regs [(8, 8)])) (fun t => t.I = 40) = true ∧
    nx (run1 0xF029 (regs [(0, 255)])) (fun t => t.I = 1275) = true := by decide
/-- M10: the last legal address. -/
theorem test_ldB : nx (run1 0xF033 (regs [(0, 255)] { State.reset with I := 0xFFD }))
    (fun t => t.mem.byteAt 0xFFD = 2 && t.mem.byteAt 0xFFE = 5 && t.mem.byteAt 0xFFF = 5) = true := by decide
/-- M11. -/
theorem test_ldB_out : halts (run1 0xF033 (regs [(0, 255)] { State.reset with I := 0xFFE }))
    (.dataOutOfBounds 0x200 0xF033 0xFFE) = true := by decide
/-- S5. -/
theorem test_storeRegs : nx (run1 0xF455 (regs [(0, 0xAB), (4, 0xCB), (5, 0xDB)] { State.reset with I := 0x300 }))
    (fun t => t.mem.byteAt 0x300 = 0xAB && t.mem.byteAt 0x301 = 0 && t.mem.byteAt 0x304 = 0xCB && t.mem.byteAt 0x305 = 0 &&
      t.I = 0x300) = true := by decide
/-- M14. -/
theorem test_storeRegs_out : halts (run1 0xF155 (regs [(0, 0xAA), (1, 0xBB)] { State.reset with I := 0xFFF }))
    (.dataOutOfBounds 0x200 0xF155 0xFFF) = true := by decide
/-- M17: the default font's glyph 0. -/
theorem test_loadRegs : nx (run1 0xF465 .reset) (fun t => t.reg 0 = 0xF0 && t.reg 1 = 0x90 && t.reg 2 = 0x90 &&
    t.reg 3 = 0x90 && t.reg 4 = 0xF0 && t.reg 5 = 0) = true := by decide
/-- M15. -/
theorem test_loadRegs_out : halts (run1 0xF065 { State.reset with I := 0x1000 }) (.dataOutOfBounds 0x200 0xF065 0x1000) = true := by
  decide
/-- D1. -/
theorem test_cls : nx (run1 0x00E0 { State.reset with fb := State.reset.fb.set 5 0xFF }) (fun t =>
    count t = 0 && t.out.changed && t.fbDirty) = true := by decide
/-- D9: bit order and wrap at both edges. -/
theorem test_drw : nx (run1 0xD122 (bytes 0x20C [0xC3, 0x81] (regs [(1, 62), (2, 31)] { State.reset with I := 0x20C })))
    (fun t => lit t [(62, 31), (63, 31), (4, 31), (5, 31), (62, 0), (5, 0)] && count t = 6 && t.reg 15 = 0 &&
      t.out.changed) = true := by decide
/-- D14: one pixel cleared, one set. -/
theorem test_drw_collision : nx (run1 0xD011 (bytes 0x300 [0xC0] { State.reset with I := 0x300, fb := State.reset.fb.set 0 1 }))
    (fun t => lit t [(1, 0)] && count t = 1 && t.reg 15 = 1) = true := by decide
/-- K1, K2. -/
theorem test_skp : nx (run1 0xE39E (pressed 0x0400 (regs [(3, 10)]))) (fun t => t.pc = 0x204) = true ∧
    nx (run1 0xE39E (regs [(3, 10)])) (fun t => t.pc = 0x202) = true := by decide
/-- K5. -/
theorem test_skp_out : halts (run1 0xE39E (regs [(3, 16)])) (.keyIndexOutOfRange 0x200 0xE39E 16) = true := by decide
/-- K3, K4. -/
theorem test_sknp : nx (run1 0xE3A1 (regs [(3, 10)])) (fun t => t.pc = 0x204) = true ∧
    nx (run1 0xE3A1 (pressed 0x0400 (regs [(3, 10)]))) (fun t => t.pc = 0x202) = true := by decide
/-- K6. -/
theorem test_sknp_out : halts (run1 0xE3A1 (regs [(3, 0xFF)])) (.keyIndexOutOfRange 0x200 0xE3A1 255) = true := by decide
/-- K7: the step holds `pc` and ticks. -/
theorem test_ldVxK_none : nx (run1 0xF10A { State.reset with dt := 3 }) (fun t => t.pc = 0x200 && t.reg 1 = 0 && t.dt = 2) =
    true := by decide
/-- K8: the lowest key. -/
theorem test_ldVxK : nx (run1 0xF10A (pressed 0x0280 .reset)) (fun t => t.pc = 0x202 && t.reg 1 = 7) = true := by decide
/-- K11. -/
theorem test_ldVxDt : nx (run1 0xF307 { State.reset with dt := 5 }) (fun t => t.reg 3 = 5 && t.dt = 4) = true := by decide
/-- K13, K14. -/
theorem test_ldDtVx : nx (run1 0xF015 (regs [(0, 3)])) (fun t => t.dt = 2) = true ∧
    nx (run1 0xF015 { State.reset with dt := 9 }) (fun t => t.dt = 0) = true := by decide
/-- K18, K19. -/
theorem test_ldStVx : nx (run1 0xF018 (regs [(0, 1)])) (fun t => t.st = 0 && t.out.tone) = true ∧
    nx (run1 0xF018 { State.reset with st := 1 }) (fun t => t.st = 0 && !t.out.tone) = true := by decide
/-- E2: an unrecognized word runs the epilogue. -/
theorem test_unrecognized : nx (run1 0x0123 { State.reset with dt := 2, st := 1 }) (fun t => t.pc = 0x202 &&
    t.out.diag = some ⟨0x0123, 0x200⟩ && t.dt = 1 && t.st = 0 && t.out.tone) = true := by decide
/-- E1: the first step after reset, with no program loaded (R301). -/
theorem test_first_step : nx (step .reset) (fun t => t.pc = 0x202 && t.out.diag = some ⟨0, 0x200⟩) = true := by decide
/-- E10, E11. -/
theorem test_fetch_edge : nx (run1 0x6007 { State.reset with pc := 0xFFE }) (fun t => t.reg 0 = 7 && t.pc = 0x1000) = true ∧
    halts (step { State.reset with pc := 0xFFF }) (.fetchOutOfBounds 0xFFF) = true := by decide
/-- E13: an odd `pc` fetches. -/
theorem test_fetch_odd : nx (run1 0x6A2F { State.reset with pc := 0x201 }) (fun t => t.reg 10 = 0x2F && t.pc = 0x203) =
    true := by decide
/-- Writing the byte an unlisted address reads as removes the entry, so equal memories are equal lists. -/
theorem test_memory_canonical : Memory.set (Memory.set [] 0x300 7) 0x300 0 = [] ∧
    Memory.set (Memory.set [] 0x300 7) 0x100 9 = [(0x100, 9), (0x300, 7)] := by decide

/-- Where R226 (f)'s clause on VF fails (log 24): every pixel under the sprite was set, the first draw unsets it, the second
sets it again, and by R221 and R222 its VF is 0, although the sprite has a set bit. -/
theorem test_second_draw_without_collision :
    nx (run1 0xD011 (bytes 0x300 [0x80] { State.reset with I := 0x300, fb := State.reset.fb.set 0 1 }))
      (fun t => t.reg 15 = 1 && nx (exec (.drw 0 1 1) t) (fun u => u.reg 15 = 0 && lit u [(0, 0)])) = true := by decide

/-! ### Concrete data that meet the hypotheses of each obligation -/

theorem witness_EncodeDecodeRoundTrip : decodeWord 0x82F6 = .instr (.shr 2 15) := by decide

theorem witness_DecodeAgreesWithOpcodeTable :
    (∃ r, opcodeRows[0]? = some r ∧ r.selectedBy 0x00E0 = true) ∧ decodeWord 0x00E0 = .instr .cls ∧
    (∃ r, opcodeRows[33]? = some r ∧ r.selectedBy 0xFF65 = true) ∧ decodeWord 0xFF65 = .instr (.loadRegs 15) ∧
    decodeWord 0x0000 = .unrecognized 0x0000 := by
  exact ⟨⟨⟨0xFFFF, 0x00E0⟩, by decide⟩, by decide, ⟨⟨0xF0FF, 0xF065⟩, by decide⟩, by decide, by decide⟩

/-- Each group's clause at its edges. -/
theorem witness_UnrecognizedWordsExactly :
    [0x0000#16, 0x00DF, 0x00E1, 0x00ED, 0x00EF, 0x0FFF, 0x5001, 0x5FFF, 0x8008, 0x800D, 0x8FFF, 0x9001, 0x9FFF, 0xE09D,
      0xE09F, 0xE0A0, 0xE0A2, 0xF006, 0xF064, 0xFFFF].all (fun w => decide (decodeWord w = .unrecognized w)) = true := by decide

/-- A line of each side, a line with a defined label, one with an undefined label, a label after two items, an item placed. -/
theorem witness_WellFormedLineAssemblesToOneWord :
    (Mnem.DRW, [Operand.v 15, .v 15, .num 15]) ∈ sourceForms (.drw 15 15 15) ∧
    (Mnem.SHR, [Operand.v 2]) ∈ sourceForms (.shr 2 0) ∧ operandsWf .DRW [.v 15, .v 15, .num 16] = false ∧
    List.Forall₂ (fun w o => (w = o ∧ ∀ l, w ≠ Operand.lab l) ∨
      ∃ l a, w = .lab l ∧ [(7, 0xFFF)].lookup l = some a ∧ o = .num a) [.v 0, .lab 7] [.v 0, .num 0xFFF] ∧
    Operand.lab 8 ∈ [Operand.lab 8] ∧ [(7, 0xFFF)].lookup 8 = none ∧
    AsmItem.label 7 ∉ [AsmItem.db [1, 2, 3], .label 8] ∧ itemBytes [(7, 0xFFF)] (.instr .JP [.lab 7]) = some [0x1F, 0xFF] := by
  refine ⟨by decide, by decide, by decide, .cons (.inl ⟨rfl, by simp⟩) (.cons (.inr ⟨7, 0xFFF, rfl, by decide, rfl⟩) .nil),
    by decide, by decide, by decide, by decide⟩

/-- An instruction at the highest `pc` from which a word can be fetched: one that completes and one that halts. -/
def atTop (w : Nat) : State := State.withFetchWord { State.reset with pc := 0xFFE } 16 w

theorem witness_StepRunsTheDecodedInstruction :
    (atTop 0x6007).pc.toNat + 1 < 4096 ∧
    decodeBytes [(atTop 0x6007).mem.byteAt 0xFFE, (atTop 0x6007).mem.byteAt 0xFFF] = .word (.instr (.ldImm 0 7)) [] ∧
    (∃ t, exec (.ldImm 0 7) { atTop 0x6007 with out := Outputs.none } = .next t) ∧
    decodeBytes [(atTop 0x00EE).mem.byteAt 0xFFE, (atTop 0x00EE).mem.byteAt 0xFFF] = .word (.instr .ret) [] ∧
    exec .ret { atTop 0x00EE with out := Outputs.none } = .fault (.stackUnderflow 0xFFE 0x00EE) :=
  ⟨by decide, by decide, next_of (by decide), by decide, fault_of (by decide)⟩

theorem witness_EpilogueTicksBothTimers :
    (atTop 0x6007).pc.toNat + 1 < 4096 ∧
    (∃ u, execDecoded (decodeWord (atTop 0x6007).fetchWord) (atTop 0x6007).beginStep = .next u) ∧
    execDecoded (decodeWord (atTop 0x00EE).fetchWord) (atTop 0x00EE).beginStep =
      .fault (.stackUnderflow 0xFFE 0x00EE) :=
  ⟨by decide, next_of (by decide), fault_of (by decide)⟩

theorem witness_UnrecognizedWordIsNoOpWithDiagnostic :
    (atTop 0x0123).pc.toNat + 1 < 4096 ∧ decodeWord (atTop 0x0123).fetchWord = .unrecognized 0x0123 := by decide

theorem witness_FetchHaltsExactlyPastTheEnd :
    4096 ≤ (0xFFF : Word).toNat + 1 ∧ 4096 ≤ (0x10FE : Word).toNat + 1 ∧ (0xFFE : Word).toNat + 1 < 4096 := by decide

/-- Each clause of the table, and its other side by one. -/
theorem witness_InstructionHaltsExactlyByTable :
    halts (exec (.call 0) { State.reset with sp := 16 }) (.stackOverflow 0x200 0x2000) = true ∧
    nx (exec (.call 0) { State.reset with sp := 15 }) (fun _ => true) = true ∧
    halts (exec .ret .reset) (.stackUnderflow 0x200 0x00EE) = true ∧
    nx (exec .ret { State.reset with sp := 1 }) (fun _ => true) = true ∧
    halts (exec (.drw 0 1 2) { State.reset with I := 0xFFF }) (.dataOutOfBounds 0x200 0xD012 0xFFF) = true ∧
    nx (exec (.drw 0 1 1) { State.reset with I := 0xFFF }) (fun _ => true) = true ∧
    nx (exec (.drw 0 1 0) { State.reset with I := 0xFFFF }) (fun _ => true) = true ∧
    halts (exec (.ldB 0) { State.reset with I := 0xFFE }) (.dataOutOfBounds 0x200 0xF033 0xFFE) = true ∧
    halts (exec (.storeRegs 1) { State.reset with I := 0xFFF }) (.dataOutOfBounds 0x200 0xF155 0xFFF) = true ∧
    halts (exec (.loadRegs 15) { State.reset with I := 0xFF1 }) (.dataOutOfBounds 0x200 0xFF65 0xFF1) = true ∧
    nx (exec (.loadRegs 15) { State.reset with I := 0xFF0 }) (fun _ => true) = true ∧
    halts (exec (.skp 3) (regs [(3, 16)])) (.keyIndexOutOfRange 0x200 0xE39E 16) = true ∧
    halts (exec (.sknp 3) (regs [(3, 16)])) (.keyIndexOutOfRange 0x200 0xE3A1 16) = true ∧
    nx (exec (.skp 3) (regs [(3, 15)])) (fun _ => true) = true := by decide

/-- A completed step of an instruction that none of the exceptions names: data for `CompletedStepConsumesItsInputs`,
`OtherWordsIgnoreTheInputs` (no exception), `FramebufferHasTwoMutators` (second clause), `OnlyCallAndReturnTouchTheStack`,
`OnlyStoresWriteMemory`, `OnlyIndexInstructionsWriteI` and `TimersFallByAtMostOne`. -/
theorem witness_completed_step :
    decodeWord (atTop 0x6007).fetchWord = .instr (.ldImm 0 7) ∧ ∃ t, step (atTop 0x6007) = .next t :=
  ⟨by decide, next_of (by decide)⟩

/-- `OtherWordsIgnoreTheInputs`: RND under other keys, and a key instruction under another random byte. -/
theorem witness_OtherWordsIgnoreTheInputs :
    (decodeWord (atTop 0xC0FF).fetchWord = .instr (.rnd 0 0xFF) ∧ (∃ t, step (atTop 0xC0FF) = .next t) ∧
      State.rndPort { atTop 0xC0FF with inputs := [⟨some (Vector.replicate 16 true), none⟩] } = (atTop 0xC0FF).rndPort ∧
      State.keyPort { atTop 0xC0FF with inputs := [⟨some (Vector.replicate 16 true), none⟩] } ≠ (atTop 0xC0FF).keyPort) ∧
    (decodeWord (atTop 0xE09E).fetchWord = .instr (.skp 0) ∧ (∃ t, step (atTop 0xE09E) = .next t) ∧
      State.keyPort { atTop 0xE09E with inputs := [⟨none, some 1⟩] } = (atTop 0xE09E).keyPort ∧
      State.rndPort { atTop 0xE09E with inputs := [⟨none, some 1⟩] } ≠
        State.rndPort { atTop 0xE09E with inputs := [⟨none, some 2⟩] }) :=
  ⟨⟨by decide, next_of (by decide), rfl, by decide⟩, by decide, next_of (by decide), by decide, by decide⟩

theorem witness_FramebufferHasTwoMutators :
    (decodeWord (atTop 0x00E0).fetchWord = .instr .cls ∧ ∃ t, step (atTop 0x00E0) = .next t) ∧
    (decodeWord (atTop 0xD015).fetchWord = .instr (.drw 0 1 5) ∧ ∃ t, step (atTop 0xD015) = .next t) :=
  ⟨⟨by decide, next_of (by decide)⟩, by decide, next_of (by decide)⟩

/-- A state in which every instruction completes. -/
def roomy : State := { State.reset with sp := 1, I := 0x300 }

/-- Every clause of `PcAfterEachInstruction`, and data for `NoInstructionReadsTheSoundTimer`. -/
theorem witness_PcAfterEachInstruction :
    ∀ i ∈ [Instr.jp 0xFFF, .call 0xFFF, .jpV0 0xFFF, .ret, .seImm 0 0, .sneImm 0 0, .seReg 0 1, .sneReg 0 1, .skp 0, .sknp 0,
      .ldVxK 0, .cls], nx (exec i roomy) (fun _ => true) = true := by decide

/-- Every clause of `RegistersWrittenByEachInstruction`, with a register it says stays. -/
theorem witness_RegistersWrittenByEachInstruction :
    (∀ i ∈ [Instr.ldImm 0 1, .addImm 0 1, .ldReg 0 1, .orReg 0 1, .andReg 0 1, .xorReg 0 1, .rnd 0 1, .ldVxDt 0, .ldVxK 0,
      .addReg 0 1, .subReg 0 1, .shr 0 1, .subn 0 1, .shl 0 1, .drw 0 1 1, .loadRegs 0, .storeRegs 15],
      nx (exec i roomy) (fun _ => true) = true) ∧
    (1 : RegIdx) ≠ 0 ∧ (1 : RegIdx) ≠ vF ∧ (0 : RegIdx) < 1 := by decide

theorem witness_inv_reset : State.reset.Inv := ⟨by decide, by decide, by decide⟩

/-- `StepKeepsInvariant`: the invariant at its edges, and a step that completes. -/
theorem witness_StepKeepsInvariant :
    State.Inv { State.reset with pc := 0x10FE, stack := Vector.replicate 16 0xFFE } ∧
    ∃ s t, s.Inv ∧ step s = .next t :=
  ⟨⟨by decide, by decide, by decide⟩, .reset, by
    obtain ⟨t, h⟩ := next_of (o := step .reset) (by decide)
    exact ⟨t, witness_inv_reset, h⟩⟩

/-- `HostMovesKeepInvariant` and `ReachableStatesMeetInvariant`. -/
theorem witness_reachable : (State.resetWith Config.font).Reachable :=
  .reset Config.font []

/-- `ResetGivesTheTabledState`: the last byte of the font and the first after it. -/
theorem witness_ResetGivesTheTabledState : (79 : Nat) < 80 ∧ (80 : Nat) ≤ 80 := by decide

theorem witness_ProgramLoadWritesOnlyTheProgram :
    (List.replicate 3584 (0xFF : Byte)).length ≤ 3584 ∧ ([] : List Byte).length ≤ 3584 ∧
    3584 < (List.replicate 3585 (0xFF : Byte)).length := by
  rw [List.length_replicate, List.length_replicate]; decide

/-- `JumpV0GoesToTheUnreducedSum`: the least sum past the end, and the greatest. -/
theorem witness_JumpV0GoesToTheUnreducedSum :
    4095 ≤ (0xFFF : Addr).toNat + (State.reset.reg 0).toNat ∧ 4095 ≤ (0xFFF : Addr).toNat + ((regs [(0, 0xFF)]).reg 0).toNat ∧
    4095 ≤ (0xF00 : Addr).toNat + ((regs [(0, 0xFF)]).reg 0).toNat := by decide

theorem witness_CallPushesItsOwnAddress : State.sp { State.reset with sp := 15 } < 16 := by decide

theorem witness_ReturnGoesAfterThePoppedEntry :
    0 < (State.sp { State.reset with sp := 1 }).val ∧ 0 < (State.sp { State.reset with sp := 16 }).val := by decide

/-- `ReturnResumesAfterTheCall`: the state after the CALL itself. -/
theorem witness_ReturnResumesAfterTheCall :
    (State.sp { State.reset with sp := 15 }).val < 16 ∧
    ∃ t u : State, exec (.call 0x300) { State.reset with sp := 15 } = .next t ∧ u.sp = t.sp ∧ u.stack[15] = t.stack[15] := by
  obtain ⟨t, h⟩ := next_of (o := exec (.call 0x300) { State.reset with sp := 15 }) (by decide)
  exact ⟨by decide, t, t, h, rfl, rfl⟩

/-- `SkipsOnRegister`: both clauses with X = Y complete. -/
theorem witness_SkipsOnRegister :
    nx (exec (.seReg 15 15) .reset) (fun t => t.pc = 0x204) = true ∧
    nx (exec (.sneReg 15 15) .reset) (fun t => t.pc = 0x202) = true := by decide

theorem witness_JumpToSelfMovesOnlyTheTimers : (State.reset.withFetchWord 16 0x1200).Spins :=
  ⟨by decide, 0x200, by decide, by decide⟩

/-- `AddRegistersWithCarry`, each clause (A10, A13, A14, A15). -/
theorem witness_AddRegistersWithCarry :
    nx (exec (.addReg 0 1) (regs [(0, 255), (1, 1)])) (fun t => t.reg 0 = 0 && t.reg 15 = 1) = true ∧
    nx (exec (.addReg 15 1) (regs [(15, 200), (1, 100)])) (fun t => t.reg 15 = 101) = true ∧
    nx (exec (.addReg 0 15) (regs [(0, 100), (15, 200)])) (fun t => t.reg 0 = 101 && t.reg 15 = 1) = true ∧
    nx (exec (.addReg 15 15) (regs [(15, 200)])) (fun t => t.reg 15 = 2) = true := by decide

/-- `SubtractRegistersWithBorrow`, each clause (A20, A21, A22, A24). -/
theorem witness_SubtractRegistersWithBorrow :
    nx (exec (.subReg 0 1) (regs [(0, 0), (1, 1)])) (fun t => t.reg 0 = 0xFF && t.reg 15 = 0) = true ∧
    nx (exec (.subReg 15 1) (regs [(15, 5), (1, 3)])) (fun t => t.reg 15 = 254) = true ∧
    nx (exec (.subReg 0 15) (regs [(0, 10), (15, 3)])) (fun t => t.reg 0 = 9 && t.reg 15 = 1) = true ∧
    nx (exec (.subReg 15 15) (regs [(15, 77)])) (fun t => t.reg 15 = 0) = true := by decide

/-- `SubtractReversedWithBorrow`, each clause (A31, A32, A33, A34). -/
theorem witness_SubtractReversedWithBorrow :
    nx (exec (.subn 1 2) (regs [(1, 1), (2, 0x10)])) (fun t => t.reg 1 = 0x0F && t.reg 15 = 1) = true ∧
    nx (exec (.subn 15 1) (regs [(15, 5), (1, 9)])) (fun t => t.reg 15 = 8) = true ∧
    nx (exec (.subn 0 15) (regs [(0, 10), (15, 3)])) (fun t => t.reg 0 = 246 && t.reg 15 = 0) = true ∧
    nx (exec (.subn 15 15) (regs [(15, 77)])) (fun t => t.reg 15 = 0) = true := by decide

/-- `ShiftsInPlaceWithBitOut`, each clause (A26, A28, A36, A39). -/
theorem witness_ShiftsInPlaceWithBitOut :
    nx (exec (.shr 0 1) (regs [(0, 0xFE)])) (fun t => t.reg 0 = 0x7F && t.reg 15 = 0) = true ∧
    nx (exec (.shr 15 0) (regs [(15, 0xFF)])) (fun t => t.reg 15 = 0) = true ∧
    nx (exec (.shl 0 1) (regs [(0, 0x7F)])) (fun t => t.reg 0 = 0xFE && t.reg 15 = 0) = true ∧
    nx (exec (.shl 15 0) (regs [(15, 0x7F)])) (fun t => t.reg 15 = 0) = true := by decide

theorem witness_RandomByteIsMasked : State.inputs { State.reset with inputs := [⟨none, some 0xB7⟩] } =
    ⟨none, some 0xB7⟩ :: [] := rfl

theorem witness_DecimalDigitsAreStored : (0xFFD : Word).toNat + 2 ≤ 4095 := by decide

/-- `RegistersAreStored`, `RegistersAreLoaded` and `StoreThenLoadReproducesRegisters`, at the last legal address. -/
theorem witness_RegistersAreStored : (State.I { State.reset with I := 0xFF0 }).toNat + (15 : RegIdx).val ≤ 4095 := by decide

/-- `DrawInvertsExactlyTheSprite`: the last legal address, and N = 0 with any `I`. -/
theorem witness_DrawInvertsExactlyTheSprite :
    (∃ covered : Fin 64 → Fin 32 → Prop, ∀ px py, covered px py ↔ ∃ row col, row < 1 ∧ col < 8 ∧
      (Memory.byteAt State.reset.mem (0xFFF + row)).getLsbD (7 - col) = true ∧
      px.val = (0 + col) % 64 ∧ py.val = (0 + row) % 32) ∧
    (0xFFF : Word).toNat + (1 : Nibble).toNat - 1 ≤ 4095 ∧ (0 : Nibble).toNat = 0 :=
  ⟨⟨_, fun _ _ => Iff.rfl⟩, by decide, by decide⟩

/-- `CollisionIffAPixelWasUnset` and `DrawTwiceRestoresTheFramebuffer`: a draw that completes. -/
theorem witness_draw : ∃ t, exec (.drw 0 1 15) { State.reset with I := 0xFF1 } = .next t := next_of (by decide)

theorem witness_SkipsOnKey : ((regs [(3, 15)]).reg 3).toNat < 16 ∧ ((regs [(3, 0)]).reg 3).toNat < 16 := by decide

/-- `WaitForKeyHoldsPcOrStoresTheLowest`: no key, key 0, and key 15 alone. -/
theorem witness_WaitForKeyHoldsPcOrStoresTheLowest :
    (∀ k, State.reset.key k = false) ∧ (pressed 0xFFFF .reset).key 0 = true ∧
    (∀ j, j < 0 → (pressed 0xFFFF .reset).key j = false) ∧ (pressed 0x8000 .reset).key 15 = true ∧
    ∀ j, j < 15 → (pressed 0x8000 .reset).key j = false := by decide

/-- `DelayTimerIsReadBeforeTheTick` and `TimersAreLoadedBeforeTheTick`. -/
theorem witness_timer_steps :
    (atTop 0xF307).pc.toNat + 1 < 4096 ∧ decodeWord (atTop 0xF307).fetchWord = .instr (.ldVxDt 3) ∧
    (atTop 0xF015).pc.toNat + 1 < 4096 ∧ decodeWord (atTop 0xF015).fetchWord = .instr (.ldDtVx 0) ∧
    (atTop 0xF018).pc.toNat + 1 < 4096 ∧ decodeWord (atTop 0xF018).fetchWord = .instr (.ldStVx 0) := by decide

end Sys2Proof.Tests
end

section
/-! CALL and RET where they complete, and the pair of them (10_state.md R46, R47). -/

namespace Sys2Proof.Machine

/-- CALL with a free stack entry pushes its own address and jumps. -/
theorem exec_call_of_free {s : State} (nnn : Addr) (h : s.sp.val < 16) :
    exec (.call nnn) s = .next ((s.push s.pc h).jump (zextAddr nnn)) := by
  change execCall nnn s = _
  exact dif_pos h

/-- RET with a stack entry in use pops it and goes two past the address it holds. -/
theorem exec_ret_of_inUse {s : State} (h : 0 < s.sp.val) :
    exec .ret s = .next (s.pop.jump (s.top h + 2)) := by
  change execRet s = _
  exact dif_pos h

/-- The entry at the old `sp` is the one a pop reads once `sp` has risen by one. -/
theorem State.top_of_sp_succ {u : State} {k : Nat} (hk : k < 16) (hsp : u.sp.val = k + 1) (h : 0 < u.sp.val) :
    u.top h = u.stack[k] := by
  simp [State.top_eq, hsp]

/-- Settles O36: the pushed entry is the CALL's `pc`; `sp` being one higher, the RET's top is that entry. -/
theorem returnResumesAfterTheCall : Obligations.ReturnResumesAfterTheCall := by
  unfold Obligations.ReturnResumesAfterTheCall
  intro s nnn h
  have pushed : ((s.push s.pc h).jump (zextAddr nnn)).stack[s.sp.val] = s.pc := by simp
  refine ⟨_, exec_call_of_free nnn h, pushed, fun u hsp hentry => ?_⟩
  have hval : u.sp.val = s.sp.val + 1 := by simp [hsp]
  have hpos : 0 < u.sp.val := by omega
  have htop : u.top hpos = s.pc := (State.top_of_sp_succ h hval hpos).trans (hentry.trans pushed)
  refine ⟨_, exec_ret_of_inUse hpos, ?_, ?_⟩
  · simp [htop]
  · apply Fin.ext
    simp [hval]

end Sys2Proof.Machine
end

section
/-! The epilogue of a completed step: what the end of a step does to the timers, to the tone and to the rest of the core
(40_step_cycle.md R136, R137). -/

namespace Sys2Proof.Machine

/-- The tone sounds exactly in a step whose execute phase left the sound timer at 1. -/
theorem State.endStep_tone_iff (u : State) : u.endStep.out.tone = true ↔ u.st.toNat = 1 := by
  simp [← BitVec.toNat_inj]

/-- The end of a step changes both timers, the tone and the inputs it uses up; every other part reads as before. -/
theorem State.endStep_frame (u : State) :
    State.Frame (· ∈ [.dt, .st, .tone, .keys, .inputs, .draws]) u u.endStep := by
  intro p untouched
  cases p with
  | dt | st | tone | keys | inputs | draws => exact absurd (by decide) untouched
  | reg | I | pc | sp | entry | byte | pixel | dirty | changed | diag => rfl

/-- Settles O9: a completed step ends in `endStep` of what the execute phase left, and a halt passes through
unfinished. -/
theorem epilogueTicksBothTimers : Obligations.EpilogueTicksBothTimers := by
  unfold Obligations.EpilogueTicksBothTimers
  intro s hpc
  have inBounds : s.fetchBad = false := s.fetchBad_false_iff.mpr hpc
  constructor
  · intro u hu
    have completes : step s = .next u.endStep := (step_next_iff s _).mpr ⟨inBounds, u, hu, rfl⟩
    exact ⟨u.endStep, completes, tickTimer_toNat u.dt, tickTimer_toNat u.st, u.endStep_tone_iff, u.endStep_frame⟩
  · intro f hf
    exact (step_fault_iff s f).mpr (.inr ⟨inBounds, hf⟩)

end Sys2Proof.Machine
end

section
/-! The words of formats A, I and R as numbers (30_encoding.md R102), and what the decoder makes of the jumps' and the
compare-and-skips' words (R105). -/

namespace Sys2Proof

theorem ofNat_formatA (g : Nibble) (nnn : Addr) :
    BitVec.ofNat 16 (g.toNat * 4096 + nnn.toNat) = formatA g nnn := by
  rw [← formatA_toNat, BitVec.ofNat_toNat, BitVec.setWidth_eq]

theorem ofNat_formatI (g : Nibble) (x : RegIdx) (nn : Byte) :
    BitVec.ofNat 16 (g.toNat * 4096 + x.val * 256 + nn.toNat) = formatI g x nn := by
  rw [← formatI_toNat, BitVec.ofNat_toNat, BitVec.setWidth_eq]

theorem ofNat_formatR (g : Nibble) (x y : RegIdx) (n : Nibble) :
    BitVec.ofNat 16 (g.toNat * 4096 + x.val * 256 + y.val * 16 + n.toNat) = formatR g x y n := by
  rw [← formatR_toNat, BitVec.ofNat_toNat, BitVec.setWidth_eq]

theorem decodeWord_jp (nnn : Addr) : decodeWord (BitVec.ofNat 16 (0x1000 + nnn.toNat)) = .instr (.jp nnn) := by
  have word : BitVec.ofNat 16 (0x1000 + nnn.toNat) = formatA 1 nnn := ofNat_formatA 1 nnn
  simp [word, decodeWord]

theorem decodeWord_jpV0 (nnn : Addr) : decodeWord (BitVec.ofNat 16 (0xB000 + nnn.toNat)) = .instr (.jpV0 nnn) := by
  have word : BitVec.ofNat 16 (0xB000 + nnn.toNat) = formatA 0xB nnn := ofNat_formatA 0xB nnn
  simp [word, decodeWord]

theorem decodeWord_seImm (x : RegIdx) (nn : Byte) :
    decodeWord (BitVec.ofNat 16 (0x3000 + x.val * 256 + nn.toNat)) = .instr (.seImm x nn) := by
  have word : BitVec.ofNat 16 (0x3000 + x.val * 256 + nn.toNat) = formatI 3 x nn := ofNat_formatI 3 x nn
  simp [word, decodeWord]

theorem decodeWord_sneImm (x : RegIdx) (nn : Byte) :
    decodeWord (BitVec.ofNat 16 (0x4000 + x.val * 256 + nn.toNat)) = .instr (.sneImm x nn) := by
  have word : BitVec.ofNat 16 (0x4000 + x.val * 256 + nn.toNat) = formatI 4 x nn := ofNat_formatI 4 x nn
  simp [word, decodeWord]

theorem decodeWord_seReg (x y : RegIdx) :
    decodeWord (BitVec.ofNat 16 (0x5000 + x.val * 256 + y.val * 16)) = .instr (.seReg x y) := by
  have word : BitVec.ofNat 16 (0x5000 + x.val * 256 + y.val * 16) = formatR 5 x y 0 := ofNat_formatR 5 x y 0
  simp [word, decodeWord]

theorem decodeWord_sneReg (x y : RegIdx) :
    decodeWord (BitVec.ofNat 16 (0x9000 + x.val * 256 + y.val * 16)) = .instr (.sneReg x y) := by
  have word : BitVec.ofNat 16 (0x9000 + x.val * 256 + y.val * 16) = formatR 9 x y 0 := ofNat_formatR 9 x y 0
  simp [word, decodeWord]

end Sys2Proof
end

section
/-! The jumps and the compare-and-skips (41_flow.md R150, R152, R154 to R158): none can halt, and each writes `pc` and
nothing else. -/

namespace Sys2Proof.Machine

/-- A jump changes `pc`; every other part reads as before. -/
theorem State.jump_frame (s : State) (target : Word) : State.Frame (· ∈ [.pc]) s (s.jump target) := by
  intro p untouched
  cases p with
  | pc => exact absurd (by decide) untouched
  | reg | I | sp | entry | dt | st | byte | pixel | dirty | keys | inputs | draws | changed | tone | diag => rfl

/-- An advance is the jump to `pc + n`. -/
theorem State.advance_frame (s : State) (n : Word) : State.Frame (· ∈ [.pc]) s (s.advance n) :=
  s.jump_frame (s.pc + n)

/-- The target of `JP V0, nnn`: at most 4095 + 255, so the 16-bit sum does not wrap. -/
theorem zextAddr_add_zextByte_toNat (a : Addr) (b : Byte) : (zextAddr a + zextByte b).toNat = a.toNat + b.toNat := by
  rw [BitVec.toNat_add, zextAddr_toNat, zextByte_toNat]
  omega

/-- With `pc` at 4095 or beyond, the step halts at its fetch check (60_exceptions.md R263). -/
theorem step_of_pc_ge {s : State} (h : 4095 ≤ s.pc.toNat) : step s = .fault (.fetchOutOfBounds s.pc) :=
  (step_fault_iff s _).mpr (.inl ⟨s.fetchBad_iff.mpr (by omega), rfl⟩)

theorem exec_jp (nnn : Addr) (s : State) : exec (.jp nnn) s = .next (s.jump (zextAddr nnn)) := rfl

theorem exec_jpV0 (nnn : Addr) (s : State) :
    exec (.jpV0 nnn) s = .next (s.jump (zextAddr nnn + zextByte (s.reg 0))) := rfl

/-- A skip on equality goes 4 past its address where the two bytes are equal. -/
theorem skipIf_beq (a b : Byte) (s : State) : skipIf (a == b) s = .next (s.advance (if a = b then 4 else 2)) := by
  by_cases h : a = b <;> simp [skipIf, h]

/-- A skip on difference goes 2 past its address where the two bytes are equal. -/
theorem skipIf_bne (a b : Byte) (s : State) : skipIf (a != b) s = .next (s.advance (if a = b then 2 else 4)) := by
  by_cases h : a = b <;> simp [skipIf, h]

theorem exec_seImm (x : RegIdx) (nn : Byte) (s : State) :
    exec (.seImm x nn) s = .next (s.advance (if s.reg x = nn then 4 else 2)) := skipIf_beq (s.reg x) nn s

theorem exec_sneImm (x : RegIdx) (nn : Byte) (s : State) :
    exec (.sneImm x nn) s = .next (s.advance (if s.reg x = nn then 2 else 4)) := skipIf_bne (s.reg x) nn s

theorem exec_seReg (x y : RegIdx) (s : State) :
    exec (.seReg x y) s = .next (s.advance (if s.reg x = s.reg y then 4 else 2)) := skipIf_beq (s.reg x) (s.reg y) s

theorem exec_sneReg (x y : RegIdx) (s : State) :
    exec (.sneReg x y) s = .next (s.advance (if s.reg x = s.reg y then 2 else 4)) := skipIf_bne (s.reg x) (s.reg y) s

/-- Settles O32: the jump goes to the zero-extended address, whose value is NNN. -/
theorem jumpGoesToItsAddress : Obligations.JumpGoesToItsAddress := by
  unfold Obligations.JumpGoesToItsAddress
  intro s nnn
  exact ⟨decodeWord_jp nnn, _, exec_jp nnn s, zextAddr_toNat nnn, s.jump_frame _⟩

/-- Settles O33: the sum does not wrap, so at 4095 or more it fails the fetch check of any step that starts there. -/
theorem jumpV0GoesToTheUnreducedSum : Obligations.JumpV0GoesToTheUnreducedSum := by
  unfold Obligations.JumpV0GoesToTheUnreducedSum
  intro s nnn
  have target := zextAddr_add_zextByte_toNat nnn (s.reg 0)
  refine ⟨decodeWord_jpV0 nnn, _, exec_jpV0 nnn s, target, fun beyond u hu => ?_, s.jump_frame _⟩
  rw [← hu]
  apply step_of_pc_ge
  rw [hu, State.jump_pc, target]
  exact beyond

/-- Settles O37: each skip is an advance by 4 or 2. -/
theorem skipsOnImmediate : Obligations.SkipsOnImmediate := by
  unfold Obligations.SkipsOnImmediate
  intro s x nn
  constructor
  · exact ⟨decodeWord_seImm x nn, _, exec_seImm x nn s, rfl, s.advance_frame _⟩
  · exact ⟨decodeWord_sneImm x nn, _, exec_sneImm x nn s, rfl, s.advance_frame _⟩

/-- Settles O38: each skip is an advance by 4 or 2, and a register equals itself. -/
theorem skipsOnRegister : Obligations.SkipsOnRegister := by
  unfold Obligations.SkipsOnRegister
  intro s x y
  constructor
  · refine ⟨decodeWord_seReg x y, _, exec_seReg x y s, rfl, fun same => ?_, s.advance_frame _⟩
    simp [same]
  · refine ⟨decodeWord_sneReg x y, _, exec_sneReg x y s, rfl, fun same => ?_, s.advance_frame _⟩
    simp [same]

end Sys2Proof.Machine
end

section
/-! What the decoder makes of the words of the immediate load and add, and of the moves and bitwise operations of group 8
(30_encoding.md R105). -/

namespace Sys2Proof

theorem decodeWord_ldImm (x : RegIdx) (nn : Byte) :
    decodeWord (BitVec.ofNat 16 (0x6000 + x.val * 256 + nn.toNat)) = .instr (.ldImm x nn) := by
  have word : BitVec.ofNat 16 (0x6000 + x.val * 256 + nn.toNat) = formatI 6 x nn := ofNat_formatI 6 x nn
  simp [word, decodeWord]

theorem decodeWord_addImm (x : RegIdx) (nn : Byte) :
    decodeWord (BitVec.ofNat 16 (0x7000 + x.val * 256 + nn.toNat)) = .instr (.addImm x nn) := by
  have word : BitVec.ofNat 16 (0x7000 + x.val * 256 + nn.toNat) = formatI 7 x nn := ofNat_formatI 7 x nn
  simp [word, decodeWord]

/-- A word of group 8 is sub-selected by its low nibble `n`, here added to the group first. -/
theorem decodeWord_group8 (x y : RegIdx) (n : Nibble) :
    decodeWord (BitVec.ofNat 16 (0x8000 + n.toNat + x.val * 256 + y.val * 16)) =
      decodeGroup8 (formatR 8 x y n) (fieldsOf (formatR 8 x y n)) := by
  have reorder : 0x8000 + n.toNat + x.val * 256 + y.val * 16 = 0x8000 + x.val * 256 + y.val * 16 + n.toNat := by omega
  have word : BitVec.ofNat 16 (0x8000 + x.val * 256 + y.val * 16 + n.toNat) = formatR 8 x y n := ofNat_formatR 8 x y n
  simp [reorder, word, decodeWord]

theorem decodeWord_ldReg (x y : RegIdx) :
    decodeWord (BitVec.ofNat 16 (0x8000 + x.val * 256 + y.val * 16)) = .instr (.ldReg x y) :=
  (decodeWord_group8 x y 0).trans (by simp [decodeGroup8])

theorem decodeWord_orReg (x y : RegIdx) :
    decodeWord (BitVec.ofNat 16 (0x8001 + x.val * 256 + y.val * 16)) = .instr (.orReg x y) :=
  (decodeWord_group8 x y 1).trans (by simp [decodeGroup8])

theorem decodeWord_andReg (x y : RegIdx) :
    decodeWord (BitVec.ofNat 16 (0x8002 + x.val * 256 + y.val * 16)) = .instr (.andReg x y) :=
  (decodeWord_group8 x y 2).trans (by simp [decodeGroup8])

theorem decodeWord_xorReg (x y : RegIdx) :
    decodeWord (BitVec.ofNat 16 (0x8003 + x.val * 256 + y.val * 16)) = .instr (.xorReg x y) :=
  (decodeWord_group8 x y 3).trans (by simp [decodeGroup8])

end Sys2Proof
end

section
/-! The loads of one register with a computed byte (42_alu.md R170 to R175): none can halt, and each writes `pc` and the
destination, VF only as the destination. -/

namespace Sys2Proof.Machine

/-- Writing one register and advancing changes that register and `pc`; every other part reads as before. -/
theorem State.setReg_advance_frame (s : State) (x : RegIdx) (v : Byte) (n : Word) :
    State.Frame (· ∈ [.pc, .reg x]) s ((s.setReg x v).advance n) := by
  intro p untouched
  cases p with
  | pc => exact absurd (by simp) untouched
  | reg r =>
    have other : r ≠ x := fun same => untouched (by simp [same])
    exact s.reg_setReg_other v other
  | I | sp | entry | dt | st | byte | pixel | dirty | keys | inputs | draws | changed | tone | diag => rfl

/-- All that the shared shape of R170 to R175 does: it completes, the destination holds the byte, `pc` advances by 2. -/
theorem loadReg_completes (x : RegIdx) (v : Byte) (s : State) :
    ∃ t, loadReg x v s = .next t ∧ t.reg x = v ∧ t.pc = s.pc + 2 ∧ State.Frame (· ∈ [.pc, .reg x]) s t :=
  ⟨_, rfl, s.reg_setReg_same x v, rfl, s.setReg_advance_frame x v 2⟩

theorem exec_ldImm (x : RegIdx) (nn : Byte) (s : State) : exec (.ldImm x nn) s = loadReg x nn s := rfl

theorem exec_addImm (x : RegIdx) (nn : Byte) (s : State) : exec (.addImm x nn) s = loadReg x (s.reg x + nn) s := rfl

theorem exec_ldReg (x y : RegIdx) (s : State) : exec (.ldReg x y) s = loadReg x (s.reg y) s := rfl

theorem exec_orReg (x y : RegIdx) (s : State) : exec (.orReg x y) s = loadReg x (s.reg x ||| s.reg y) s := rfl

theorem exec_andReg (x y : RegIdx) (s : State) : exec (.andReg x y) s = loadReg x (s.reg x &&& s.reg y) s := rfl

theorem exec_xorReg (x y : RegIdx) (s : State) : exec (.xorReg x y) s = loadReg x (s.reg x ^^^ s.reg y) s := rfl

/-- Settles O40: both are loads of one register, of NN and of a sum whose value is taken modulo 256. -/
theorem loadAndAddImmediate : Obligations.LoadAndAddImmediate := by
  unfold Obligations.LoadAndAddImmediate
  intro s x nn
  constructor
  · obtain ⟨t, run, value, pc, frame⟩ := loadReg_completes x nn s
    exact ⟨decodeWord_ldImm x nn, t, (exec_ldImm x nn s).trans run, value, pc, frame⟩
  · obtain ⟨t, run, value, pc, frame⟩ := loadReg_completes x (s.reg x + nn) s
    have sum : (t.reg x).toNat = ((s.reg x).toNat + nn.toNat) % 256 := by rw [value, BitVec.toNat_add]
    exact ⟨decodeWord_addImm x nn, t, (exec_addImm x nn s).trans run, sum, pc, frame⟩

/-- Settles O41: all four are loads of one register, and each bitwise operation acts on every bit by itself. -/
theorem moveAndLogic : Obligations.MoveAndLogic := by
  unfold Obligations.MoveAndLogic
  intro s x y
  refine ⟨⟨decodeWord_ldReg x y, ?_⟩, ⟨decodeWord_orReg x y, ?_⟩, ⟨decodeWord_andReg x y, ?_⟩,
    ⟨decodeWord_xorReg x y, ?_⟩⟩
  · obtain ⟨t, run, value, pc, frame⟩ := loadReg_completes x (s.reg y) s
    exact ⟨t, (exec_ldReg x y s).trans run, value, pc, frame⟩
  · obtain ⟨t, run, value, pc, frame⟩ := loadReg_completes x (s.reg x ||| s.reg y) s
    exact ⟨t, (exec_orReg x y s).trans run, fun b _ => by rw [value, BitVec.getLsbD_or], pc, frame⟩
  · obtain ⟨t, run, value, pc, frame⟩ := loadReg_completes x (s.reg x &&& s.reg y) s
    exact ⟨t, (exec_andReg x y s).trans run, fun b _ => by rw [value, BitVec.getLsbD_and], pc, frame⟩
  · obtain ⟨t, run, value, pc, frame⟩ := loadReg_completes x (s.reg x ^^^ s.reg y) s
    exact ⟨t, (exec_xorReg x y s).trans run, fun b _ => by rw [value, BitVec.getLsbD_xor], pc, frame⟩

end Sys2Proof.Machine
end

section
/-! What the decoder makes of the word of `LD I, nnn` and of the words of group F (30_encoding.md R105). -/

namespace Sys2Proof

theorem decodeWord_ldI (nnn : Addr) : decodeWord (BitVec.ofNat 16 (0xA000 + nnn.toNat)) = .instr (.ldI nnn) := by
  have word : BitVec.ofNat 16 (0xA000 + nnn.toNat) = formatA 0xA nnn := ofNat_formatA 0xA nnn
  simp [word, decodeWord]

/-- A word of group F is sub-selected by its low byte `nn`, here added to the group first. -/
theorem decodeWord_groupF (x : RegIdx) (nn : Byte) :
    decodeWord (BitVec.ofNat 16 (0xF000 + nn.toNat + x.val * 256)) =
      decodeGroupF (formatI 0xF x nn) (fieldsOf (formatI 0xF x nn)) := by
  have reorder : 0xF000 + nn.toNat + x.val * 256 = 0xF000 + x.val * 256 + nn.toNat := by omega
  have word : BitVec.ofNat 16 (0xF000 + x.val * 256 + nn.toNat) = formatI 0xF x nn := ofNat_formatI 0xF x nn
  simp [reorder, word, decodeWord]

theorem decodeWord_ldF (x : RegIdx) : decodeWord (BitVec.ofNat 16 (0xF029 + x.val * 256)) = .instr (.ldF x) :=
  (decodeWord_groupF x 0x29).trans (by simp [decodeGroupF])

end Sys2Proof
end

section
/-! The loads of `I`, and the store and the load of a register range where they stay within memory (43_index_memory.md
R200, R202, R204 to R206). -/

namespace Sys2Proof.Machine

/-- Writing `I` and advancing changes `I` and `pc`; every other part reads as before. -/
theorem State.setI_advance_frame (s : State) (v n : Word) : State.Frame (· ∈ [.pc, .I]) s ((s.setI v).advance n) := by
  intro p untouched
  cases p with
  | pc | I => exact absurd (by decide) untouched
  | reg | sp | entry | dt | st | byte | pixel | dirty | keys | inputs | draws | changed | tone | diag => rfl

/-- The glyph address of `LD F, Vx`: at most 255 * 5, so the 16-bit product does not wrap. -/
theorem zextByte_mul_five_toNat (b : Byte) : (zextByte b * 5).toNat = b.toNat * 5 := by
  have five : (5 : Word).toNat = 5 := rfl
  rw [BitVec.toNat_mul, zextByte_toNat, five]
  omega

theorem exec_ldI (nnn : Addr) (s : State) : exec (.ldI nnn) s = .next ((s.setI (zextAddr nnn)).advance 2) := rfl

theorem exec_ldF (x : RegIdx) (s : State) : exec (.ldF x) s = .next ((s.setI (zextByte (s.reg x) * 5)).advance 2) := rfl

/-- Settles O47: both write `I` and `pc` alone, and neither the zero-extended address nor the product wraps. -/
theorem indexLoads : Obligations.IndexLoads := by
  unfold Obligations.IndexLoads
  intro s
  constructor
  · intro nnn
    exact ⟨decodeWord_ldI nnn, _, exec_ldI nnn s, zextAddr_toNat nnn, rfl, s.setI_advance_frame _ 2⟩
  · intro x
    exact ⟨decodeWord_ldF x, _, exec_ldF x s, zextByte_mul_five_toNat (s.reg x), rfl, s.setI_advance_frame _ 2⟩

/-- The bytes at `I` to `I + X` lie in memory where the last of them does. -/
theorem State.dataBad_eq_false_of_le {s : State} {x : Nat} (h : s.I.toNat + x ≤ 4095) : s.dataBad (x + 1) = false := by
  rw [← Bool.not_eq_true, State.dataBad_iff]
  omega

/-- Within memory, `LD [I], Vx` stores the range and advances. -/
theorem exec_storeRegs_of_le {s : State} {x : RegIdx} (h : s.I.toNat + x.val ≤ 4095) :
    exec (.storeRegs x) s = .next ((s.setMem (storeRange s (regsUpTo x))).advance 2) :=
  (withData_next_iff _ _ _ _ _).mpr ⟨State.dataBad_eq_false_of_le h, rfl⟩

/-- Within memory, `LD Vx, [I]` loads the range and advances. -/
theorem exec_loadRegs_of_le {s : State} {x : RegIdx} (h : s.I.toNat + x.val ≤ 4095) :
    exec (.loadRegs x) s = .next ((loadRange s (regsUpTo x)).advance 2) :=
  (withData_next_iff _ _ _ _ _).mpr ⟨State.dataBad_eq_false_of_le h, rfl⟩

/-- A register of the range after a run of loads holds the byte of memory at its place, whatever it held before. -/
theorem reg_loadRange_mem (s : State) {rs : List RegIdx} {i : RegIdx} (h : i ∈ rs) :
    (loadRange s rs).reg i = s.mem.byteAt (s.dataAddr i.val) := by
  obtain ⟨v, loaded, read⟩ := loadRange_eq s rs
  rw [loaded]
  exact (read i).trans (if_pos h)

/-- Settles O52: the store leaves `I` as it was, so the load passes the same bounds check and reads each register's byte
where the store put it. -/
theorem storeThenLoadReproducesRegisters : Obligations.StoreThenLoadReproducesRegisters := by
  unfold Obligations.StoreThenLoadReproducesRegisters
  intro s x between inBounds
  refine ⟨_, _, exec_storeRegs_of_le inBounds, exec_loadRegs_of_le inBounds, fun i hi => ?_⟩
  have inRange : i ∈ regsUpTo x := (mem_regsUpTo x i).mpr hi
  rw [State.advance_reg, reg_loadRange_mem _ inRange]
  exact byteAt_storeRange_mem s _ i inRange

end Sys2Proof.Machine
end

section
/-! The execute phase and the timers (45_keypad_timers.md R243 to R246): outside the two timer loads it leaves both
as they were, and each load leaves the other timer, so a timer that is not loaded changes by the tick alone. -/

namespace Sys2Proof.Machine

/-- Where the outcome is a completed execute phase of `s`, both timers read as in `s`. -/
def KeepsTimers (s : State) (o : Host.Outcome State Fault Refusal) : Prop :=
  ∀ t, o = .next t → t.dt = s.dt ∧ t.st = s.st

theorem keepsTimers_next {s u : State} (dt : u.dt = s.dt) (st : u.st = s.st) : KeepsTimers s (.next u) := by
  rintro _ ⟨⟩
  exact ⟨dt, st⟩

theorem keepsTimers_halt (s : State) (f : Fault) : KeepsTimers s (halt f) := nofun

theorem skipIfKey_keepsTimers (i : Instr) (x : RegIdx) (pressed : Bool) (s : State) :
    KeepsTimers s (skipIfKey i x pressed s) := by
  by_cases h : (s.reg x).toNat < 16
  · rw [skipIfKey_of_lt i x pressed s h]
    exact keepsTimers_next rfl rfl
  · rw [skipIfKey_of_ge i x pressed s h]
    exact keepsTimers_halt s _

theorem withData_keepsTimers (i : Instr) (k : Nat) {s u : State} (dt : u.dt = s.dt) (st : u.st = s.st) :
    KeepsTimers s (withData i k s u) := by
  intro t run
  obtain ⟨-, rfl⟩ := (withData_next_iff i k s u t).mp run
  exact ⟨dt, st⟩

/-- A load of a register range changes registers and `pc`, so no timer. -/
theorem execLoadRegs_keepsTimers (x : RegIdx) (s : State) : KeepsTimers s (execLoadRegs x s) := by
  obtain ⟨v, loaded, -⟩ := loadRange_eq s (regsUpTo x)
  rw [execLoadRegs, loaded]
  exact withData_keepsTimers _ _ rfl rfl

theorem execCall_keepsTimers (nnn : Addr) (s : State) : KeepsTimers s (execCall nnn s) := by
  unfold execCall
  split
  · exact keepsTimers_next rfl rfl
  · exact keepsTimers_halt s _

theorem execRet_keepsTimers (s : State) : KeepsTimers s (execRet s) := by
  unfold execRet
  split
  · exact keepsTimers_next rfl rfl
  · exact keepsTimers_halt s _

/-- Waiting for a key does not stop the timers, nor does it write them (R242). -/
theorem execLdVxK_keepsTimers (x : RegIdx) (s : State) : KeepsTimers s (execLdVxK x s) := by
  unfold execLdVxK
  split
  · exact keepsTimers_next rfl rfl
  · exact keepsTimers_next rfl rfl

/-- Every instruction but the two timer loads leaves both timers: one without a halt check or a wait
completes in a state with the same timers, and each of the others is of a shape above. -/
theorem exec_keepsTimers {i : Instr} (s : State) (notDt : ∀ x, i ≠ .ldDtVx x) (notSt : ∀ x, i ≠ .ldStVx x) :
    KeepsTimers s (exec i s) := by
  cases i with
  | ldDtVx x => exact absurd rfl (notDt x)
  | ldStVx x => exact absurd rfl (notSt x)
  | cls | jp | jpV0 | seImm | sneImm | seReg | sneReg => exact keepsTimers_next rfl rfl
  | ldImm | addImm | ldReg | orReg | andReg | xorReg | rnd | ldVxDt => exact keepsTimers_next rfl rfl
  | addReg | subReg | shr | subn | shl | ldI | addI | ldF => exact keepsTimers_next rfl rfl
  | ret => exact execRet_keepsTimers s
  | call nnn => exact execCall_keepsTimers nnn s
  | drw | ldB | storeRegs => exact withData_keepsTimers _ _ rfl rfl
  | skp | sknp => exact skipIfKey_keepsTimers _ _ _ s
  | ldVxK x => exact execLdVxK_keepsTimers x s
  | loadRegs x => exact execLoadRegs_keepsTimers x s

/-- Every word but the two timer loads leaves both timers, unrecognized words included. -/
theorem execDecoded_keepsTimers {d : Decoded} (s : State) (notDt : ∀ x, d ≠ .instr (.ldDtVx x))
    (notSt : ∀ x, d ≠ .instr (.ldStVx x)) : KeepsTimers s (execDecoded d s) := by
  cases d with
  | instr i => exact exec_keepsTimers s (fun x same => notDt x (by rw [same])) (fun x same => notSt x (by rw [same]))
  | unrecognized op => exact keepsTimers_next rfl rfl

theorem exec_ldDtVx (x : RegIdx) (s : State) : exec (.ldDtVx x) s = .next ((s.setDt (s.reg x)).advance 2) := rfl

theorem exec_ldStVx (x : RegIdx) (s : State) : exec (.ldStVx x) s = .next ((s.setSt (s.reg x)).advance 2) := rfl

/-- Only `LD DT, Vx` writes the delay timer in the execute phase: the load of the sound timer leaves it too. -/
theorem execDecoded_dt {d : Decoded} {s u : State} (run : execDecoded d s = .next u)
    (notDt : ∀ x, d ≠ .instr (.ldDtVx x)) : u.dt = s.dt := by
  by_cases loadsSt : ∃ x, d = .instr (.ldStVx x)
  · obtain ⟨x, rfl⟩ := loadsSt
    obtain rfl := Host.Outcome.next.inj ((exec_ldStVx x s).symm.trans run)
    rfl
  · exact (execDecoded_keepsTimers s notDt (not_exists.mp loadsSt) u run).1

/-- Only `LD ST, Vx` writes the sound timer in the execute phase: the load of the delay timer leaves it too. -/
theorem execDecoded_st {d : Decoded} {s u : State} (run : execDecoded d s = .next u)
    (notSt : ∀ x, d ≠ .instr (.ldStVx x)) : u.st = s.st := by
  by_cases loadsDt : ∃ x, d = .instr (.ldDtVx x)
  · obtain ⟨x, rfl⟩ := loadsDt
    obtain rfl := Host.Outcome.next.inj ((exec_ldDtVx x s).symm.trans run)
    rfl
  · exact (execDecoded_keepsTimers s (not_exists.mp loadsDt) notSt u run).2

/-- Settles O22: the execute phase leaves a timer it does not load, and the end of the step ticks it once. -/
theorem timersFallByAtMostOne : Obligations.TimersFallByAtMostOne := by
  unfold Obligations.TimersFallByAtMostOne
  intro s t completes
  obtain ⟨-, u, run, rfl⟩ := (step_next_iff s t).mp completes
  constructor
  · intro notDt
    have kept : u.dt = s.beginStep.dt := execDecoded_dt run notDt
    rw [State.endStep_dt, tickTimer_toNat, kept, State.beginStep_dt]
  · intro notSt
    have kept : u.st = s.beginStep.st := execDecoded_st run notSt
    rw [State.endStep_st, tickTimer_toNat, kept, State.beginStep_st]

end Sys2Proof.Machine
end

section
/-! The encoder and the decoder against each other and against the opcode table (30_encoding.md R104, R105, R111). -/

namespace Sys2Proof

/-! ### Decoding an encoded word -/

theorem decodeWord_encode (i : Instr) : decodeWord (encode i) = .instr i := by
  cases i with
  | cls | ret => decide
  | jp | call | ldI | jpV0 => simp [encode, decodeWord]
  | seImm | sneImm | ldImm | addImm | rnd => simp [encode, decodeWord]
  | seReg | sneReg | drw => simp [encode, decodeWord]
  | ldReg | orReg | andReg | xorReg | addReg | subReg | shr | subn | shl => simp [encode, decodeWord, decodeGroup8]
  | skp | sknp => simp [encode, decodeWord, decodeGroupE]
  | ldVxDt | ldVxK | ldDtVx | ldStVx | addI | ldF | ldB | storeRegs | loadRegs =>
    simp [encode, decodeWord, decodeGroupF]

/-- Settles O1: each format's fields read back as they were put together, and the two bytes are the word again. -/
theorem decodeEncodeRoundTrip : Obligations.DecodeEncodeRoundTrip := by
  unfold Obligations.DecodeEncodeRoundTrip
  intro i
  refine ⟨decodeWord_encode i, fun rest => ?_⟩
  change DecodedBytes.word (decodeWord (wordOfBytes (highByte (encode i)) (lowByte (encode i)))) rest = _
  rw [wordOfBytes_bytes, decodeWord_encode]

/-! ### Encoding a decoded word -/

/-- A word is its group and its 12-bit address. -/
theorem formatA_fieldsOf (op : Word) : formatA (fieldsOf op).g (fieldsOf op).nnn = op := by
  apply BitVec.eq_of_toNat_eq
  rw [formatA_toNat, fieldsOf, field_toNat, field_toNat]
  omega

/-- A word is its group, its X and its low byte. -/
theorem formatI_fieldsOf (op : Word) : formatI (fieldsOf op).g (fieldsOf op).x (fieldsOf op).nn = op := by
  apply BitVec.eq_of_toNat_eq
  rw [formatI_toNat, fieldsOf, regOfNibble_val, field_toNat, field_toNat, field_toNat]
  omega

/-- A word is its four nibbles. -/
theorem formatR_fieldsOf (op : Word) :
    formatR (fieldsOf op).g (fieldsOf op).x (fieldsOf op).y (fieldsOf op).n = op := by
  apply BitVec.eq_of_toNat_eq
  rw [formatR_toNat, fieldsOf, regOfNibble_val, regOfNibble_val, field_toNat, field_toNat, field_toNat, field_toNat]
  omega

/-- A format A word is known by its group. -/
theorem formatA_eq_of_fields {op : Word} {g : Nibble} (hg : (fieldsOf op).g = g) : formatA g (fieldsOf op).nnn = op := by
  rw [← hg, formatA_fieldsOf]

theorem formatI_eq_of_fields {op : Word} {g : Nibble} (hg : (fieldsOf op).g = g) :
    formatI g (fieldsOf op).x (fieldsOf op).nn = op := by
  rw [← hg, formatI_fieldsOf]

/-- A format S word is known by its group and its sub-opcode byte. -/
theorem formatS_eq_of_fields {op : Word} {g : Nibble} {nn : Byte} (hg : (fieldsOf op).g = g)
    (hnn : (fieldsOf op).nn = nn) : formatI g (fieldsOf op).x nn = op := by
  rw [← hg, ← hnn, formatI_fieldsOf]

theorem formatR_eq_of_fields {op : Word} {g n : Nibble} (hg : (fieldsOf op).g = g) (hn : (fieldsOf op).n = n) :
    formatR g (fieldsOf op).x (fieldsOf op).y n = op := by
  rw [← hg, ← hn, formatR_fieldsOf]

theorem encode_of_decodeGroup0 {op : Word} {i : Instr} (h : decodeGroup0 op = .instr i) : encode i = op := by
  unfold decodeGroup0 at h
  split at h
  next word => cases h; exact word.symm
  next =>
    split at h
    next word => cases h; exact word.symm
    next => cases h

theorem encode_of_decodeGroup8 {op : Word} {i : Instr} (hg : (fieldsOf op).g = 8)
    (h : decodeGroup8 op (fieldsOf op) = .instr i) : encode i = op := by
  unfold decodeGroup8 at h
  split at h <;> cases h
  all_goals
    next hn => exact formatR_eq_of_fields hg (BitVec.eq_of_toNat_eq hn)

theorem encode_of_decodeGroupE {op : Word} {i : Instr} (hg : (fieldsOf op).g = 0xE)
    (h : decodeGroupE op (fieldsOf op) = .instr i) : encode i = op := by
  unfold decodeGroupE at h
  repeat' split at h
  all_goals cases h
  all_goals
    next hnn => exact formatS_eq_of_fields hg hnn

theorem encode_of_decodeGroupF {op : Word} {i : Instr} (hg : (fieldsOf op).g = 0xF)
    (h : decodeGroupF op (fieldsOf op) = .instr i) : encode i = op := by
  unfold decodeGroupF at h
  repeat' split at h
  all_goals cases h
  all_goals
    next hnn => exact formatS_eq_of_fields hg hnn

/-- Settles O2: the fields a group's decoder keeps, with the ones it has checked, make up the whole word. -/
theorem encodeDecodeRoundTrip : Obligations.EncodeDecodeRoundTrip := by
  unfold Obligations.EncodeDecodeRoundTrip
  intro op i h
  unfold decodeWord at h
  dsimp only at h
  split at h
  case h_1 => exact encode_of_decodeGroup0 h
  case h_2 hg | h_3 hg | h_11 hg | h_12 hg =>
    cases h
    exact formatA_eq_of_fields (BitVec.eq_of_toNat_eq hg)
  case h_4 hg | h_5 hg | h_7 hg | h_8 hg | h_13 hg =>
    cases h
    exact formatI_eq_of_fields (BitVec.eq_of_toNat_eq hg)
  case h_6 hg | h_10 hg =>
    split at h <;> cases h
    next hn => exact formatR_eq_of_fields (BitVec.eq_of_toNat_eq hg) hn
  case h_9 hg => exact encode_of_decodeGroup8 (BitVec.eq_of_toNat_eq hg) h
  case h_14 hg =>
    cases h
    exact formatR_eq_of_fields (BitVec.eq_of_toNat_eq hg) rfl
  case h_15 hg => exact encode_of_decodeGroupE (BitVec.eq_of_toNat_eq hg) h
  case h_16 =>
    have group : (fieldsOf op).g.toNat = 0xF := by
      simp only [imp_false] at *
      omega
    exact encode_of_decodeGroupF (BitVec.eq_of_toNat_eq group) h

/-- Settles O3: the word of each format is the number its fields add up to. -/
theorem encodingOfEveryRow : Obligations.EncodingOfEveryRow := by
  unfold Obligations.EncodingOfEveryRow
  intro i
  cases i with
  | cls | ret => rfl
  | jp | call | ldI | jpV0 => exact formatA_toNat _ _
  | seImm | sneImm | ldImm | addImm | rnd => exact formatI_toNat _ _ _
  | drw => exact formatR_toNat _ _ _ _
  | seReg | sneReg | ldReg | orReg | andReg | xorReg | addReg | subReg | shr | subn | shl =>
    refine (formatR_toNat _ _ _ _).trans ?_
    dsimp only [BitVec.reduceToNat]
    omega
  | skp | sknp | ldVxDt | ldVxK | ldDtVx | ldStVx | addI | ldF | ldB | storeRegs | loadRegs =>
    refine (formatI_toNat _ _ _).trans ?_
    dsimp only [BitVec.reduceToNat]
    omega

/-! ### The unrecognized words -/

theorem fieldsOf_g_toNat (op : Word) : (fieldsOf op).g.toNat = op.toNat / 4096 := by
  rw [fieldsOf, field_toNat]
  omega

theorem fieldsOf_n_toNat (op : Word) : (fieldsOf op).n.toNat = op.toNat % 16 := by
  rw [fieldsOf, field_toNat]
  omega

theorem fieldsOf_nn_toNat (op : Word) : (fieldsOf op).nn.toNat = op.toNat % 256 := by
  rw [fieldsOf, field_toNat]
  omega

/-- An unrecognized word is rejected under its own name. -/
theorem decodeWord_unrecognized_name {op w : Word} (h : decodeWord op = .unrecognized w) : w = op := by
  unfold decodeWord decodeGroup0 decodeGroup8 decodeGroupE decodeGroupF at h
  dsimp only at h
  repeat' split at h
  all_goals cases h
  all_goals rfl

theorem decodeGroup0_unrecognized_iff (op : Word) :
    decodeGroup0 op = .unrecognized op ↔ op.toNat ≠ 0x00E0 ∧ op.toNat ≠ 0x00EE := by
  simp only [decodeGroup0, ← BitVec.toNat_inj]
  split <;> simp_all

theorem decodeGroup8_unrecognized_iff (op : Word) :
    decodeGroup8 op (fieldsOf op) = .unrecognized op ↔ op.toNat % 16 ∈ [8, 9, 0xA, 0xB, 0xC, 0xD, 0xF] := by
  rw [← fieldsOf_n_toNat]
  unfold decodeGroup8
  split
  case h_10 =>
    simp only [imp_false, List.mem_cons, List.not_mem_nil, or_false, true_iff] at *
    omega
  all_goals simp [*]

theorem decodeGroupE_unrecognized_iff (op : Word) :
    decodeGroupE op (fieldsOf op) = .unrecognized op ↔ op.toNat % 256 ∉ [0x9E, 0xA1] := by
  rw [← fieldsOf_nn_toNat]
  simp only [decodeGroupE, ← BitVec.toNat_inj]
  split_ifs <;> simp_all

theorem decodeGroupF_unrecognized_iff (op : Word) :
    decodeGroupF op (fieldsOf op) = .unrecognized op ↔
      op.toNat % 256 ∉ [0x07, 0x0A, 0x15, 0x18, 0x1E, 0x29, 0x33, 0x55, 0x65] := by
  rw [← fieldsOf_nn_toNat]
  simp only [decodeGroupF, ← BitVec.toNat_inj]
  split_ifs <;> simp_all

/-- Settles O5: by the group, then by the low nibble or the low byte that its decoder looks at. -/
theorem unrecognizedWordsExactly : Obligations.UnrecognizedWordsExactly := by
  unfold Obligations.UnrecognizedWordsExactly
  intro op
  refine ⟨fun w h => decodeWord_unrecognized_name h, ?_⟩
  rw [← fieldsOf_g_toNat]
  unfold decodeWord
  dsimp only
  split
  case h_1 hg => simp [hg, decodeGroup0_unrecognized_iff]
  case h_6 hg | h_10 hg => simp [hg, ← fieldsOf_n_toNat, ← BitVec.toNat_inj]
  case h_9 hg => simp only [hg, decodeGroup8_unrecognized_iff]; simp
  case h_15 hg => simp [hg, decodeGroupE_unrecognized_iff]
  case h_16 =>
    have group : (fieldsOf op).g.toNat = 0xF := by
      simp only [imp_false] at *
      omega
    simp only [group, decodeGroupF_unrecognized_iff]; simp
  all_goals
    next hg => simp [hg]

/-! ### The opcode table -/

/-- No word selects both rows: some bit that both masks look at is set in one pattern and clear in the other. -/
def Row.conflicts (r q : Row) : Bool := r.mask &&& q.mask &&& (r.pattern ^^^ q.pattern) != 0

/-- Where both masks look at a bit, the word shows both the same. -/
theorem masked_bits_agree (bit m n : Bool) : (m && n && ((bit && m) ^^ (bit && n))) = false := by
  revert bit m n
  decide

/-- Two rows that one word selects do not conflict: both patterns agree with it wherever both masks look. -/
theorem Row.not_conflicts {r q : Row} {op : Word} (hr : r.selectedBy op = true) (hq : q.selectedBy op = true) :
    r.conflicts q = false := by
  simp only [Row.selectedBy, beq_iff_eq] at hr hq
  simp only [Row.conflicts, ← hr, ← hq, bne_eq_false_iff_eq]
  ext j
  simp only [BitVec.getElem_and, BitVec.getElem_xor, BitVec.ofNat_eq_ofNat, BitVec.getElem_zero]
  exact masked_bits_agree _ _ _

theorem opcodeRows_conflict : opcodeRows.Pairwise (fun r q => r.conflicts q = true) := by decide

/-- At most one row of the table is selected (R105). -/
theorem selected_row_unique {op : Word} {m n : Nat} {r q : Row} (hm : opcodeRows[m]? = some r)
    (hn : opcodeRows[n]? = some q) (hr : r.selectedBy op = true) (hq : q.selectedBy op = true) : m = n := by
  obtain ⟨mLt, rfl⟩ := List.getElem?_eq_some_iff.mp hm
  obtain ⟨nLt, rfl⟩ := List.getElem?_eq_some_iff.mp hn
  have conflict := List.pairwise_iff_getElem.mp opcodeRows_conflict
  rcases Nat.lt_trichotomy m n with lt | same | gt
  · exact absurd (conflict m n mLt nLt lt) (by simp [Row.not_conflicts hr hq])
  · exact same
  · exact absurd (conflict n m nLt mLt gt) (by simp [Row.not_conflicts hq hr])

open Laws in
/-- The word of every instruction selects its own row. -/
theorem encode_selects_row (i : Instr) :
    ∃ r, opcodeRows[rowNumber i - 1]? = some r ∧ r.selectedBy (encode i) = true := by
  cases i
  exacts [RowMatch.cls, RowMatch.ret, RowMatch.jp _, RowMatch.call _, RowMatch.seImm _ _, RowMatch.sneImm _ _,
    RowMatch.seReg _ _, RowMatch.ldImm _ _, RowMatch.addImm _ _, RowMatch.ldReg _ _, RowMatch.orReg _ _,
    RowMatch.andReg _ _, RowMatch.xorReg _ _, RowMatch.addReg _ _, RowMatch.subReg _ _, RowMatch.shr _ _,
    RowMatch.subn _ _, RowMatch.shl _ _, RowMatch.sneReg _ _, RowMatch.ldI _, RowMatch.jpV0 _, RowMatch.rnd _ _,
    RowMatch.drw _ _ _, RowMatch.skp _, RowMatch.sknp _, RowMatch.ldVxDt _, RowMatch.ldVxK _, RowMatch.ldDtVx _,
    RowMatch.ldStVx _, RowMatch.addI _, RowMatch.ldF _, RowMatch.ldB _, RowMatch.storeRegs _, RowMatch.loadRegs _]

theorem and_FFFF (op : Word) : op &&& 0xFFFF = op := BitVec.and_allOnes

theorem and_F000_toNat (op : Word) : (op &&& 0xF000).toNat = op.toNat / 4096 * 4096 := by
  have masked := Laws.formatA_and (fieldsOf op).g (fieldsOf op).nnn
  rw [formatA_fieldsOf] at masked
  refine (congrArg BitVec.toNat masked).trans ?_
  rw [ append_toNat, fieldsOf_g_toNat]
  dsimp only [BitVec.reduceToNat]
  omega

theorem and_F00F_toNat (op : Word) : (op &&& 0xF00F).toNat = op.toNat / 4096 * 4096 + op.toNat % 16 := by
  have masked := Laws.formatR_and (fieldsOf op).g (fieldsOf op).x (fieldsOf op).y (fieldsOf op).n
  rw [formatR_fieldsOf] at masked
  refine (congrArg BitVec.toNat masked).trans ?_
  rw [ append_toNat, append_toNat, append_toNat, fieldsOf_g_toNat, fieldsOf_n_toNat]
  dsimp only [BitVec.reduceToNat]
  omega

theorem and_F0FF_toNat (op : Word) : (op &&& 0xF0FF).toNat = op.toNat / 4096 * 4096 + op.toNat % 256 := by
  have masked := Laws.formatS_and (fieldsOf op).g (fieldsOf op).x (fieldsOf op).nn
  rw [formatI_fieldsOf] at masked
  refine (congrArg BitVec.toNat masked).trans ?_
  rw [ append_toNat, append_toNat, fieldsOf_g_toNat, fieldsOf_nn_toNat]
  dsimp only [BitVec.reduceToNat]
  omega

/-- A word that selects a row is none of the unrecognized words. -/
theorem recognized_of_selected {op : Word} {r : Row} (hr : r ∈ opcodeRows) (h : r.selectedBy op = true) :
    decodeWord op ≠ .unrecognized op := by
  rw [Ne, (unrecognizedWordsExactly op).2]
  simp only [Row.selectedBy, beq_iff_eq, ← BitVec.toNat_inj] at h
  simp only [opcodeRows, rows1to9, rows10to18, rows19to34, List.mem_append, List.mem_cons, List.not_mem_nil,
    or_false] at hr
  casesm* _ ∨ _
  all_goals
    simp only [hr, and_FFFF, and_F000_toNat, and_F00F_toNat, and_F0FF_toNat, BitVec.reduceToNat] at h
    simp only [List.mem_cons, List.not_mem_nil, or_false]
    omega

/-- Settles O4: a decoded instruction's word selects its row, a selected word is not unrecognized, and no two rows are
selected together. -/
theorem decodeAgreesWithOpcodeTable : Obligations.DecodeAgreesWithOpcodeTable := by
  unfold Obligations.DecodeAgreesWithOpcodeTable
  intro op
  have rowOfDecoded : ∀ i, decodeWord op = .instr i →
      ∃ r, opcodeRows[rowNumber i - 1]? = some r ∧ r.selectedBy op = true := by
    intro i h
    simpa [encodeDecodeRoundTrip op i h] using encode_selects_row i
  have decodedOfRow : ∀ (n : Nat) (r : Row), opcodeRows[n]? = some r → r.selectedBy op = true →
      ∃ i, decodeWord op = .instr i ∧ rowNumber i = n + 1 := by
    intro n r hn hr
    cases h : decodeWord op with
    | unrecognized w =>
      rw [decodeWord_unrecognized_name h] at h
      exact absurd h (recognized_of_selected (List.mem_of_getElem? hn) hr)
    | instr i =>
      obtain ⟨q, hi, hq⟩ := rowOfDecoded i h
      have same : rowNumber i - 1 = n := selected_row_unique hi hn hq hr
      have pos : 1 ≤ rowNumber i := by cases i <;> simp [rowNumber]
      exact ⟨i, rfl, by omega⟩
  refine ⟨fun m n r q hm hn hr hq => selected_row_unique hm hn hr hq, rowOfDecoded, decodedOfRow, ?_⟩
  constructor
  · rintro ⟨w, h⟩ r hr
    rw [decodeWord_unrecognized_name h] at h
    by_contra selected
    exact recognized_of_selected hr (by simpa using selected) h
  · intro unselected
    cases h : decodeWord op with
    | unrecognized w => exact ⟨w, rfl⟩
    | instr i =>
      obtain ⟨r, hr, selected⟩ := rowOfDecoded i h
      exact absurd selected (by simp [unselected r (List.mem_of_getElem? hr)])

/-- Settles O6: the decoder computes each of the ten words. -/
theorem exampleWordsDecode : Obligations.ExampleWordsDecode := by
  unfold Obligations.ExampleWordsDecode
  decide

end Sys2Proof
end

section
/-! The assembler's lines against the written forms of the opcode table (30_encoding.md R105, R106, R115, R116). -/

namespace Sys2Proof.Machine

/-! ### Numbers that fit their field -/

theorem fitsBits_iff (bits n : Nat) : fitsBits bits n = true ↔ n < 2 ^ bits := by
  simp [fitsBits]

@[simp] theorem fitsBits_reg (r : RegIdx) : fitsBits 4 r.val = true := (fitsBits_iff 4 r.val).mpr r.isLt

@[simp] theorem fitsBits_toNat {bits : Nat} (b : BitVec bits) : fitsBits bits b.toNat = true :=
  (fitsBits_iff bits b.toNat).mpr b.isLt

@[simp] theorem asmReg_val (r : RegIdx) : asmReg r.val = r := Fin.ofNat_val_eq_self r

theorem val_asmReg {n : Nat} (h : fitsBits 4 n = true) : (asmReg n).val = n :=
  Nat.mod_eq_of_lt ((fitsBits_iff 4 n).mp h)

theorem toNat_ofNat_of_fits {bits n : Nat} (h : fitsBits bits n = true) : (BitVec.ofNat bits n).toNat = n := by
  rw [BitVec.toNat_ofNat, Nat.mod_eq_of_lt ((fitsBits_iff bits n).mp h)]

/-! ### One line -/

/-- Operands of a form the table has stand for an instruction. -/
theorem operandsInstr_of_wf {m : Mnem} {ops : List Operand} (h : operandsWf m ops = true) :
    ∃ i, operandsInstr m ops = some i := by
  unfold operandsWf at h
  split at h
  case h_37 => cases h
  all_goals exact ⟨_, rfl⟩

/-- A written form of an instruction assembles to it. -/
theorem asmInstr_of_form {m : Mnem} {ops : List Operand} {i : Instr} (h : (m, ops) ∈ sourceForms i) :
    asmInstr m ops = some i := by
  cases i <;> simp only [sourceForms, List.mem_cons, List.mem_ite_nil_right, List.not_mem_nil, or_false,
    Prod.mk.injEq] at h
  case shr x y | shl x y =>
    rcases h with ⟨rfl, rfl⟩ | ⟨rfl, rfl, rfl⟩ <;> simp [asmInstr, operandsWf, operandsInstr]
  all_goals
    obtain ⟨rfl, rfl⟩ := h
    simp [asmInstr, operandsWf, operandsInstr]

/-- A line that assembles is a written form of its instruction. -/
theorem form_of_asmInstr {m : Mnem} {ops : List Operand} {i : Instr} (h : asmInstr m ops = some i) :
    (m, ops) ∈ sourceForms i := by
  unfold asmInstr at h
  split_ifs at h with wf
  unfold operandsInstr at h
  split at h
  all_goals cases h
  all_goals
    simp only [operandsWf, Bool.and_eq_true, beq_iff_eq] at wf
    simp [sourceForms, val_asmReg, toNat_ofNat_of_fits, wf, -BitVec.toNat_ofNat]

theorem asmInstr_eq_some_iff (m : Mnem) (ops : List Operand) (i : Instr) :
    asmInstr m ops = some i ↔ (m, ops) ∈ sourceForms i :=
  ⟨form_of_asmInstr, asmInstr_of_form⟩

theorem operandsWf_iff (m : Mnem) (ops : List Operand) :
    operandsWf m ops = true ↔ ∃ i, (m, ops) ∈ sourceForms i := by
  simp only [← asmInstr_eq_some_iff]
  constructor
  · intro wf
    obtain ⟨i, h⟩ := operandsInstr_of_wf wf
    exact ⟨i, by rw [asmInstr, if_pos wf, h]⟩
  · rintro ⟨i, h⟩
    unfold asmInstr at h
    split_ifs at h with wf
    exact wf

/-- No written form of an instruction holds a label. -/
theorem asmInstr_of_label {m : Mnem} {ops : List Operand} {l : Nat} (h : .lab l ∈ ops) : asmInstr m ops = none := by
  have illFormed : operandsWf m ops = false := by
    unfold operandsWf
    split
    case h_37 => rfl
    all_goals simp at h
  simp [asmInstr, illFormed]

/-! ### Labels -/

/-- Operands whose labels all stand for a number are resolved to those numbers. -/
theorem map_resolveOperand {labels : List (Nat × Nat)} {written ops : List Operand}
    (h : List.Forall₂ (fun w o => (w = o ∧ ∀ l, w ≠ .lab l) ∨
      ∃ l a, w = .lab l ∧ labels.lookup l = some a ∧ o = .num a) written ops) :
    written.map (resolveOperand labels) = ops := by
  induction h with
  | nil => rfl
  | @cons w o ws os one _ ih =>
    have resolved : resolveOperand labels w = o := by
      rcases one with ⟨rfl, noLabel⟩ | ⟨l, a, rfl, found, rfl⟩
      · cases w with
        | lab l => exact absurd rfl (noLabel l)
        | v | num | I | DT | ST | K | F | B | memI => rfl
      · simp [resolveOperand, found]
    rw [List.map_cons, resolved, ih]

/-- A label that nothing before it defines stands for the address of the next byte placed. -/
theorem lookup_labelTable (a l : Nat) {before : List AsmItem} (after : List AsmItem) (h : .label l ∉ before) :
    (labelTable a (before ++ .label l :: after)).lookup l = some (a + (before.map AsmItem.size).sum) := by
  induction before generalizing a with
  | nil => simp [labelTable]
  | cons item rest ih =>
    rw [List.mem_cons, not_or] at h
    obtain ⟨notItem, notRest⟩ := h
    have later := ih (a + AsmItem.size item) notRest
    rw [List.map_cons, List.sum_cons, ← Nat.add_assoc, ← later]
    cases item with
    | label k =>
      have other : (l == k) = false := beq_eq_false_iff_ne.mpr fun same => notItem (by rw [same])
      simp [labelTable, AsmItem.size, List.lookup_cons, other]
    | instr | db | dw => rfl

/-- An accepted item places as many bytes as its size. -/
theorem length_itemBytes {labels : List (Nat × Nat)} {item : AsmItem} {b : List Byte}
    (h : itemBytes labels item = some b) : b.length = AsmItem.size item := by
  cases item with
  | instr m ops =>
    obtain ⟨i, -, rfl⟩ := Option.map_eq_some_iff.mp h
    rfl
  | db bytes =>
    obtain ⟨-, placed⟩ := Option.ite_none_right_eq_some.mp h
    obtain rfl := Option.some.inj placed
    exact List.length_map _
  | dw w =>
    obtain ⟨-, placed⟩ := Option.ite_none_right_eq_some.mp h
    obtain rfl := Option.some.inj placed
    rfl
  | label l =>
    obtain rfl := Option.some.inj h
    rfl

/-- Settles O7: a line assembles to the instruction it is a written form of, once its labels are resolved. -/
theorem wellFormedLineAssemblesToOneWord : Obligations.WellFormedLineAssemblesToOneWord := by
  unfold Obligations.WellFormedLineAssemblesToOneWord
  refine ⟨fun m ops => ⟨asmInstr_eq_some_iff m ops, operandsWf_iff m ops⟩, ?_, ?_, ?_, ?_⟩
  · intro labels m written ops resolves b
    simp only [itemBytes, map_resolveOperand resolves, Option.map_eq_some_iff, asmInstr_eq_some_iff,
      eq_comm (a := b)]
  · intro labels m written l mem undefined
    have left : .lab l ∈ written.map (resolveOperand labels) :=
      List.mem_map.mpr ⟨.lab l, mem, by simp [resolveOperand, undefined]⟩
    simp [itemBytes, asmInstr_of_label left]
  · intro a l before after notBefore
    exact lookup_labelTable a l after notBefore
  · intro labels item b accepted
    exact length_itemBytes accepted

end Sys2Proof.Machine
end

section
/-! The execute phase said once: `exec` halts with `haltCause` or completes in `effect` (40_step_cycle.md R130,
60_exceptions.md R261). -/

namespace Sys2Proof.Machine

/-! ### The two halves of the execute phase -/

/-- The halt of an access to `k` bytes through `I`, if it has one (60_exceptions.md R266). -/
def dataHalt (i : Instr) (k : Nat) (s : State) : Option Fault :=
  if s.dataBad k then some (.dataOutOfBounds s.pc (encode i) s.I) else none

/-- The cause with which an instruction halts, if it does (60_exceptions.md R264 to R267). -/
def haltCause (i : Instr) (s : State) : Option Fault :=
  match i with
  | .call _ => if s.sp.val < 16 then none else some (.stackOverflow s.pc (encode i))
  | .ret => if 0 < s.sp.val then none else some (.stackUnderflow s.pc (encode i))
  | .drw _ _ n => dataHalt i n.toNat s
  | .ldB _ => dataHalt i 3 s
  | .storeRegs x | .loadRegs x => dataHalt i (x.val + 1) s
  | .skp x | .sknp x =>
    if (s.reg x).toNat < 16 then none else some (.keyIndexOutOfRange s.pc (encode i) (s.reg x))
  | _ => none

/-- The state in which the shape of R176 to R180 completes. -/
def State.flagged (s : State) (x : RegIdx) (flag : Byte) (result : State → Byte) : State :=
  ((s.setReg vF flag).setReg x (result (s.setReg vF flag))).advance 2

/-- The canvas a draw ends with: VF is cleared before the origin is read (44_display.md R221, R225). -/
def State.canvas (s : State) (x y : RegIdx) (n : Nibble) : Canvas :=
  let s1 := s.setReg vF 0
  drawSprite s1.mem s1.I.toNat (s1.reg x) (s1.reg y) n.toNat ⟨s1.fb, s1.reg vF⟩

/-- The state in which an instruction completes, where it does not halt. -/
def effect (i : Instr) (s : State) : State :=
  match i with
  | .cls => (s.drawn Framebuffer.clear).advance 2
  | .ret => s.pop.jump (s.stack[s.sp.val - 1]'(by omega) + 2)
  | .jp nnn => s.jump (zextAddr nnn)
  | .call nnn => if h : s.sp.val < 16 then (s.push s.pc h).jump (zextAddr nnn) else s
  | .seImm x nn => s.advance (if s.reg x = nn then 4 else 2)
  | .sneImm x nn => s.advance (if s.reg x = nn then 2 else 4)
  | .seReg x y => s.advance (if s.reg x = s.reg y then 4 else 2)
  | .sneReg x y => s.advance (if s.reg x = s.reg y then 2 else 4)
  | .ldImm x nn => (s.setReg x nn).advance 2
  | .addImm x nn => (s.setReg x (s.reg x + nn)).advance 2
  | .ldReg x y => (s.setReg x (s.reg y)).advance 2
  | .orReg x y => (s.setReg x (s.reg x ||| s.reg y)).advance 2
  | .andReg x y => (s.setReg x (s.reg x &&& s.reg y)).advance 2
  | .xorReg x y => (s.setReg x (s.reg x ^^^ s.reg y)).advance 2
  | .addReg x y => s.flagged x (carryFlag (s.reg x) (s.reg y)) (fun t => t.reg x + t.reg y)
  | .subReg x y => s.flagged x (noBorrowFlag (s.reg x) (s.reg y)) (fun t => t.reg x - t.reg y)
  | .shr x _ => s.flagged x (shrFlag (s.reg x)) (fun t => t.reg x >>> 1)
  | .subn x y => s.flagged x (noBorrowFlag (s.reg y) (s.reg x)) (fun t => t.reg y - t.reg x)
  | .shl x _ => s.flagged x (shlFlag (s.reg x)) (fun t => t.reg x <<< 1)
  | .ldI nnn => (s.setI (zextAddr nnn)).advance 2
  | .jpV0 nnn => s.jump (zextAddr nnn + zextByte (s.reg 0))
  | .rnd x nn => (s.setReg x (s.rndPort &&& nn)).advance 2
  | .drw x y n => (((s.setReg vF 0).setReg vF (s.canvas x y n).vf).drawn (s.canvas x y n).fb).advance 2
  | .skp x => s.advance (if s.keyPort[(s.reg x).toNat]? = some true then 4 else 2)
  | .sknp x => s.advance (if s.keyPort[(s.reg x).toNat]? = some false then 4 else 2)
  | .ldVxDt x => (s.setReg x s.dt).advance 2
  | .ldVxK x => s.lowestKey.elim s (fun k => (s.setReg x (BitVec.ofNat 8 k.val)).advance 2)
  | .ldDtVx x => (s.setDt (s.reg x)).advance 2
  | .ldStVx x => (s.setSt (s.reg x)).advance 2
  | .addI x => (s.setI (s.I + zextByte (s.reg x))).advance 2
  | .ldF x => (s.setI (zextByte (s.reg x) * 5)).advance 2
  | .ldB x => (s.setMem (s.mem.setList s.I.toNat (bcdDigits (s.reg x)))).advance 2
  | .storeRegs x => (s.setMem (storeRange s (regsUpTo x))).advance 2
  | .loadRegs x => (loadRange s (regsUpTo x)).advance 2

/-- A keypad skip, by the key flag that VX selects. -/
theorem skipIfKey_eq (i : Instr) (x : RegIdx) (pressed : Bool) (s : State) :
    skipIfKey i x pressed s =
      if (s.reg x).toNat < 16 then .next (s.advance (if s.keyPort[(s.reg x).toNat]? = some pressed then 4 else 2))
      else .fault (.keyIndexOutOfRange s.pc (encode i) (s.reg x)) := by
  by_cases h : (s.reg x).toNat < 16
  · simp [skipIfKey_of_lt i x pressed s h, h, State.key]
  · simp [skipIfKey_of_ge i x pressed s h, h]

theorem withData_eq (i : Instr) (k : Nat) (s t : State) :
    withData i k s t = (dataHalt i k s).elim (.next t) .fault := by
  cases h : s.dataBad k <;> simp [withData, dataHalt, halt, h]

theorem execLdVxK_eq (x : RegIdx) (s : State) : execLdVxK x s = .next (effect (.ldVxK x) s) := by
  cases h : s.lowestKey <;> simp [execLdVxK, effect, loadReg, h]

/-- Everything the execute phase of an instruction can do. -/
theorem exec_eq (i : Instr) (s : State) : exec i s = (haltCause i s).elim (.next (effect i s)) .fault := by
  cases i with
  | cls | jp | jpV0 | ldI | addI | ldF | ldDtVx | ldStVx => rfl
  | ldImm | addImm | ldReg | orReg | andReg | xorReg | rnd | ldVxDt => rfl
  | addReg | subReg | shr | subn | shl => rfl
  | seImm | seReg => exact skipIf_beq _ _ s
  | sneImm | sneReg => exact skipIf_bne _ _ s
  | ldVxK x => exact execLdVxK_eq x s
  | call nnn => by_cases h : s.sp.val < 16 <;> simp [exec, execCall, haltCause, effect, halt, h]
  | ret => by_cases h : 0 < s.sp.val <;> simp [exec, execRet, haltCause, effect, halt, h, State.top_eq]
  | skp x | sknp x =>
    refine (skipIfKey_eq _ x _ s).trans ?_
    by_cases h : (s.reg x).toNat < 16 <;> simp [haltCause, effect, h]
  | drw | ldB | storeRegs | loadRegs => exact withData_eq _ _ s _

theorem exec_next_iff (i : Instr) (s t : State) : exec i s = .next t ↔ haltCause i s = none ∧ t = effect i s := by
  rw [exec_eq]
  cases haltCause i s <;> simp [eq_comm]

theorem exec_fault_iff (i : Instr) (s : State) (f : Fault) : exec i s = .fault f ↔ haltCause i s = some f := by
  rw [exec_eq]
  cases haltCause i s <;> simp

theorem exec_ne_refused (i : Instr) (s : State) (r : Refusal) : exec i s ≠ .refused r := by
  rw [exec_eq]
  cases haltCause i s <;> simp

/-- An instruction without a halt completes. -/
theorem exec_of_no_halt {i : Instr} {s : State} (h : haltCause i s = none) : exec i s = .next (effect i s) :=
  (exec_next_iff i s _).mpr ⟨h, rfl⟩

/-! ### Reading a halt and an effect -/

theorem State.lowestKey_eq_none_iff (s : State) : s.lowestKey = none ↔ ∀ k, s.key k = false := by
  simp [State.lowestKey]

/-- A run of loads, register by register into the vector of registers. -/
theorem loadRange_eq_foldl (s : State) (rs : List RegIdx) :
    loadRange s rs =
      { s with x := rs.foldl (fun v i => v.set i.val (s.mem.byteAt (s.dataAddr i.val))) s.x } := by
  unfold loadRange
  induction rs generalizing s with
  | nil => rfl
  | cons r rs ih => exact ih (s.setReg r (s.mem.byteAt (s.dataAddr r.val)))

theorem haltCause_call_eq_none_iff (nnn : Addr) (s : State) : haltCause (.call nnn) s = none ↔ s.sp.val < 16 := by
  simp only [haltCause, ite_eq_left_iff, reduceCtorEq, imp_false, not_not]

theorem haltCause_ret_eq_none_iff (s : State) : haltCause .ret s = none ↔ 0 < s.sp.val := by
  simp only [haltCause, ite_eq_left_iff, reduceCtorEq, imp_false, not_not]

theorem effect_call {s : State} (nnn : Addr) (h : s.sp.val < 16) :
    effect (.call nnn) s = (s.push s.pc h).jump (zextAddr nnn) := dif_pos h

theorem dataHalt_eq_some_iff (i : Instr) (k : Nat) (s : State) (f : Fault) :
    dataHalt i k s = some f ↔ (0 < k ∧ 4095 < s.I.toNat + k - 1) ∧ f = .dataOutOfBounds s.pc (encode i) s.I := by
  rw [← State.dataBad_iff]
  simp [dataHalt, eq_comm (a := f)]

theorem dataHalt_eq_none_iff (i : Instr) (k : Nat) (s : State) :
    dataHalt i k s = none ↔ k = 0 ∨ s.I.toNat + k - 1 ≤ 4095 := by
  simp only [dataHalt, ite_eq_right_iff, reduceCtorEq, imp_false, s.dataBad_iff k]
  omega

/-- Settles O13: `haltCause` is the table. -/
theorem instructionHaltsExactlyByTable : Obligations.InstructionHaltsExactlyByTable := by
  unfold Obligations.InstructionHaltsExactlyByTable
  intro i s f
  rw [exec_fault_iff]
  cases i with
  | call nnn =>
    have full : ¬ s.sp.val < 16 ↔ s.sp.val = 16 := by omega
    simp [haltCause, full, eq_comm]
  | ret => simp [haltCause, eq_comm]
  | drw | ldB | storeRegs | loadRegs => simp [haltCause, dataHalt_eq_some_iff, and_assoc]
  | skp x | sknp x =>
    have noKey : ¬ (s.reg x).toNat < 16 ↔ 15 < (s.reg x).toNat := by omega
    simp [haltCause, eq_comm, ← noKey]
  | cls | jp | jpV0 | ldI | addI | ldF | ldDtVx | ldStVx => simp [haltCause]
  | ldImm | addImm | ldReg | orReg | andReg | xorReg | rnd | ldVxDt | ldVxK => simp [haltCause]
  | addReg | subReg | shr | subn | shl | seImm | sneImm | seReg | sneReg => simp [haltCause]

end Sys2Proof.Machine
end

section
/-! What an instruction may write: its frame, proved once for all instructions (10_state.md R33, R36, R39, R46, R54,
20_memory.md R79). -/

namespace Sys2Proof.Machine

/-! ### Frames -/

/-- A frame over fewer parts is one over more. -/
theorem State.Frame.mono {P Q : Part → Prop} {s t : State} (frame : State.Frame P s t) (sub : ∀ p, P p → Q p) :
    State.Frame Q s t :=
  fun p untouched => frame p (mt (sub p) untouched)

theorem State.Same.trans {s t u : State} {p : Part} (first : s.Same t p) (second : t.Same u p) : s.Same u p := by
  cases p <;> exact Eq.trans second first

theorem State.Same.refl (s : State) (p : Part) : s.Same s p := by
  cases p <;> rfl

theorem State.Frame.trans {P : Part → Prop} {s t u : State} (first : State.Frame P s t) (second : State.Frame P t u) :
    State.Frame P s u :=
  fun p untouched => (first p untouched).trans (second p untouched)

/-- The parts an instruction may write. -/
def Writes (i : Instr) : Part → Prop
  | .pc => True
  | .reg r =>
    match i with
    | .ldImm x _ | .addImm x _ | .ldReg x _ | .orReg x _ | .andReg x _ | .xorReg x _ | .rnd x _ | .ldVxDt x
    | .ldVxK x => r = x
    | .addReg x _ | .subReg x _ | .shr x _ | .subn x _ | .shl x _ => r = x ∨ r = vF
    | .drw _ _ _ => r = vF
    | .loadRegs x => r ≤ x
    | _ => False
  | .I =>
    match i with
    | .ldI _ | .addI _ | .ldF _ => True
    | _ => False
  | .sp | .entry _ =>
    match i with
    | .call _ | .ret => True
    | _ => False
  | .dt =>
    match i with
    | .ldDtVx _ => True
    | _ => False
  | .st =>
    match i with
    | .ldStVx _ => True
    | _ => False
  | .byte _ =>
    match i with
    | .ldB _ | .storeRegs _ => True
    | _ => False
  | .pixel _ _ | .dirty | .changed =>
    match i with
    | .cls | .drw _ _ _ => True
    | _ => False
  | .keys | .inputs | .draws | .tone | .diag => False

/-! ### The frames of the shapes -/

theorem State.flagged_frame (s : State) (x : RegIdx) (flag : Byte) (result : State → Byte) :
    State.Frame (· ∈ [.pc, .reg x, .reg 15]) s (s.flagged x flag result) := by
  intro p untouched
  cases p with
  | pc => exact absurd (by simp) untouched
  | reg r =>
    have notX : r ≠ x := fun same => untouched (by simp [same])
    have notF : r ≠ vF := fun same => untouched (by simp [same])
    simp [State.Same, State.flagged, notX, notF]
  | I | sp | entry | dt | st | byte | pixel | dirty | keys | inputs | draws | changed | tone | diag => rfl

theorem State.push_jump_frame (s : State) (h : s.sp.val < 16) (target : Word) :
    State.Frame (· ∈ [.pc, .sp, .entry ⟨s.sp.val, h⟩]) s ((s.push s.pc h).jump target) := by
  intro p untouched
  cases p with
  | pc | sp => exact absurd (by simp) untouched
  | entry k =>
    have other : k.val ≠ s.sp.val := fun same => untouched (by simp [← same])
    exact (s.entry_push s.pc h k).trans (if_neg other)
  | reg | I | dt | st | byte | pixel | dirty | keys | inputs | draws | changed | tone | diag => rfl

theorem State.pop_jump_frame (s : State) (target : Word) : State.Frame (· ∈ [.pc, .sp]) s (s.pop.jump target) := by
  intro p untouched
  cases p with
  | pc | sp => exact absurd (by simp) untouched
  | reg | entry | I | dt | st | byte | pixel | dirty | keys | inputs | draws | changed | tone | diag => rfl

theorem State.setDt_advance_frame (s : State) (v : Byte) (n : Word) :
    State.Frame (· ∈ [.pc, .dt]) s ((s.setDt v).advance n) := by
  intro p untouched
  cases p with
  | pc | dt => exact absurd (by decide) untouched
  | reg | sp | entry | I | st | byte | pixel | dirty | keys | inputs | draws | changed | tone | diag => rfl

theorem State.setSt_advance_frame (s : State) (v : Byte) (n : Word) :
    State.Frame (· ∈ [.pc, .st]) s ((s.setSt v).advance n) := by
  intro p untouched
  cases p with
  | pc | st => exact absurd (by decide) untouched
  | reg | sp | entry | I | dt | byte | pixel | dirty | keys | inputs | draws | changed | tone | diag => rfl

/-- A store changes `pc` and the bytes in which the two memories differ. -/
theorem State.setMem_advance_frame {s : State} {m : Memory} {stored : Nat → Prop}
    (other : ∀ a, ¬ stored a → m.byteAt a = s.mem.byteAt a) (n : Word) :
    State.Frame (fun p => p = .pc ∨ ∃ a, stored a ∧ p = .byte a) s ((s.setMem m).advance n) := by
  intro p untouched
  cases p with
  | pc => exact absurd (.inl rfl) untouched
  | byte a => exact other a fun inside => untouched (.inr ⟨a, inside, rfl⟩)
  | reg | I | sp | entry | dt | st | pixel | dirty | keys | inputs | draws | changed | tone | diag => rfl

/-- A load of a range changes `pc` and the registers of the range. -/
theorem loadRange_advance_frame (s : State) (rs : List RegIdx) (n : Word) :
    State.Frame (fun p => p = .pc ∨ ∃ i ∈ rs, p = .reg i) s ((loadRange s rs).advance n) := by
  obtain ⟨v, loaded, read⟩ := loadRange_eq s rs
  rw [loaded]
  intro p untouched
  cases p with
  | pc => exact absurd (.inl rfl) untouched
  | reg r =>
    have outside : r ∉ rs := fun inside => untouched (.inr ⟨r, inside, rfl⟩)
    exact (read r).trans (if_neg outside)
  | I | sp | entry | dt | st | byte | pixel | dirty | keys | inputs | draws | changed | tone | diag => rfl

/-- A framebuffer mutator changes `pc`, `changed`, `fb_dirty` and the pixels in which the two framebuffers differ. -/
theorem State.drawn_advance_frame {s : State} {g : Framebuffer} {inverted : Fin 64 → Fin 32 → Prop}
    (other : ∀ px py, ¬ inverted px py → g.pixel px py = s.fb.pixel px py) (n : Word) :
    State.Frame (fun p => p = .pc ∨ p = .changed ∨ p = .dirty ∨ ∃ px py, inverted px py ∧ p = .pixel px py) s
      ((s.drawn g).advance n) := by
  intro p untouched
  cases p with
  | pc | changed | dirty => exact absurd (by simp) untouched
  | pixel px py => exact other px py fun inside => untouched (.inr (.inr (.inr ⟨px, py, inside, rfl⟩)))
  | reg | I | sp | entry | dt | st | byte | keys | inputs | draws | tone | diag => rfl

/-- A draw changes VF besides. -/
theorem drawn_setReg_frame {s : State} {g : Framebuffer} {inverted : Fin 64 → Fin 32 → Prop}
    (other : ∀ px py, ¬ inverted px py → g.pixel px py = s.fb.pixel px py) (v w : Byte) (n : Word) :
    State.Frame
      (fun p => p = .pc ∨ p = .reg 15 ∨ p = .changed ∨ p = .dirty ∨ ∃ px py, inverted px py ∧ p = .pixel px py) s
      ((((s.setReg vF v).setReg vF w).drawn g).advance n) := by
  intro p untouched
  cases p with
  | pc | changed | dirty => exact absurd (by simp) untouched
  | reg r =>
    have notF : r ≠ vF := fun same => untouched (by simp [same])
    simp [State.Same, notF]
  | pixel px py => exact other px py fun inside => untouched (.inr (.inr (.inr (.inr ⟨px, py, inside, rfl⟩))))
  | I | sp | entry | dt | st | byte | keys | inputs | draws | tone | diag => rfl

/-! ### The frame of every instruction -/

/-- Every instruction leaves the parts it may not write. -/
theorem effect_frame (i : Instr) (s : State) : State.Frame (Writes i) s (effect i s) := by
  cases i with
  | jp nnn => exact (s.jump_frame _).mono (by simp [Writes])
  | jpV0 nnn => exact (s.jump_frame _).mono (by simp [Writes])
  | seImm | sneImm | seReg | sneReg | skp | sknp => exact (s.advance_frame _).mono (by simp [Writes])
  | ldImm | addImm | ldReg | orReg | andReg | xorReg | rnd | ldVxDt =>
    exact (s.setReg_advance_frame _ _ 2).mono (by simp [Writes])
  | addReg | subReg | shr | subn | shl => exact (s.flagged_frame _ _ _).mono (by simp [Writes])
  | ldI | addI | ldF => exact (s.setI_advance_frame _ 2).mono (by simp [Writes])
  | ldDtVx => exact (s.setDt_advance_frame _ 2).mono (by simp [Writes])
  | ldStVx => exact (s.setSt_advance_frame _ 2).mono (by simp [Writes])
  | ldB | storeRegs =>
    refine (State.setMem_advance_frame (stored := fun _ => True) (by simp) 2).mono ?_
    rintro p (rfl | ⟨a, -, rfl⟩) <;> simp [Writes]
  | loadRegs x =>
    refine (loadRange_advance_frame s (regsUpTo x) 2).mono ?_
    rintro p (rfl | ⟨r, inRange, rfl⟩)
    · trivial
    · exact (mem_regsUpTo x r).mp inRange
  | cls =>
    refine (State.drawn_advance_frame (inverted := fun _ _ => True) (by simp) 2).mono ?_
    rintro p (rfl | rfl | rfl | ⟨px, py, -, rfl⟩) <;> simp [Writes]
  | drw =>
    refine (drawn_setReg_frame (inverted := fun _ _ => True) (by simp) _ _ 2).mono ?_
    rintro p (rfl | rfl | rfl | rfl | ⟨px, py, -, rfl⟩) <;> simp [Writes]
  | call nnn =>
    dsimp only [effect]
    split
    · exact (s.push_jump_frame _ _).mono (by simp [Writes])
    · exact fun p _ => .refl s p
  | ret => exact (s.pop_jump_frame _).mono (by simp [Writes])
  | ldVxK x =>
    dsimp only [effect]
    cases s.lowestKey with
    | none => exact fun p _ => .refl s p
    | some k => exact (s.setReg_advance_frame _ _ 2).mono (by simp [Writes])

end Sys2Proof.Machine
end

section
/-! Rules over all instructions: what each may write, where it leaves `pc`, and what it does not look at (10_state.md R33,
R36, R42, 40_step_cycle.md R132, R133). -/

namespace Sys2Proof.Machine

theorem exec_frame {i : Instr} {s t : State} (run : exec i s = .next t) : State.Frame (Writes i) s t := by
  obtain ⟨-, rfl⟩ := (exec_next_iff i s t).mp run
  exact effect_frame i s

/-- Settles O24: the registers the statement excepts are those the instruction may write. -/
theorem registersWrittenByEachInstruction : Obligations.RegistersWrittenByEachInstruction := by
  unfold Obligations.RegistersWrittenByEachInstruction
  intro i s t r run notWritten
  refine exec_frame run (.reg r) ?_
  cases i with
  | loadRegs x => exact not_le.mpr notWritten
  | addReg | subReg | shr | subn | shl => exact not_or.mpr notWritten
  | ldImm | addImm | ldReg | orReg | andReg | xorReg | rnd | ldVxDt | ldVxK | drw => exact notWritten
  | cls | ret | jp | call | jpV0 | seImm | sneImm | seReg | sneReg | skp | sknp => exact not_false
  | ldDtVx | ldStVx | ldI | addI | ldF | ldB | storeRegs => exact not_false

/-- Settles O17: read off the effect of each instruction. -/
theorem pcAfterEachInstruction : Obligations.PcAfterEachInstruction := by
  unfold Obligations.PcAfterEachInstruction
  intro i s t run
  obtain ⟨free, rfl⟩ := (exec_next_iff i s t).mp run
  cases i with
  | jp nnn => exact zextAddr_toNat nnn
  | jpV0 nnn => exact zextAddr_add_zextByte_toNat nnn (s.reg 0)
  | call nnn =>
    rw [effect_call nnn ((haltCause_call_eq_none_iff nnn s).mp free)]
    exact zextAddr_toNat nnn
  | ret =>
    exact ⟨(haltCause_ret_eq_none_iff s).mp free, rfl⟩
  | sneImm | sneReg => simp [effect, ite_not]
  | ldVxK x =>
    simp only [effect, ← State.lowestKey_eq_none_iff]
    cases s.lowestKey <;> simp
  | loadRegs x => simp [effect, loadRange_eq_foldl]
  | cls | seImm | seReg | skp | sknp | ldImm | addImm | ldReg | orReg | andReg | xorReg => rfl
  | addReg | subReg | shr | subn | shl | ldI | rnd | drw => rfl
  | ldVxDt | ldDtVx | ldStVx | addI | ldF | ldB | storeRegs => rfl

/-! ### The sound timer -/

theorem haltCause_setSt (i : Instr) (s : State) (v : Byte) : haltCause i (s.setSt v) = haltCause i s := by
  cases i <;> rfl

/-- Two states that are the same but for `st`. -/
theorem State.frame_of_eq_setSt {t u : State} (h : u = t.setSt u.st) : State.Frame (· ∈ [.st]) t u := by
  intro p untouched
  rw [h]
  cases p with
  | st => exact absurd (by decide) untouched
  | reg | sp | entry | I | pc | dt | byte | pixel | dirty | keys | inputs | draws | changed | tone | diag => rfl

/-- Another value in `st` stays there, unless the instruction loads `st`, and changes nothing else. -/
theorem effect_setSt {i : Instr} {s : State} (free : haltCause i s = none) (v : Byte) :
    State.Frame (· ∈ [.st]) (effect i s) (effect i (s.setSt v)) := by
  apply State.frame_of_eq_setSt
  cases i with
  | call nnn =>
    have h : s.sp.val < 16 := (haltCause_call_eq_none_iff nnn s).mp free
    rw [effect_call nnn h, effect_call (s := s.setSt v) nnn h]
    rfl
  | ldVxK x => cases h : s.lowestKey <;> simp only [effect, State.setSt_lowestKey, h] <;> rfl
  | loadRegs x => simp only [effect, loadRange_eq_foldl]; rfl
  | cls | ret | jp | jpV0 | seImm | sneImm | seReg | sneReg | skp | sknp => rfl
  | ldImm | addImm | ldReg | orReg | andReg | xorReg | rnd | ldVxDt => rfl
  | addReg | subReg | shr | subn | shl | ldI | addI | ldF | drw => rfl
  | ldDtVx | ldStVx | ldB | storeRegs => rfl

/-- Settles O23: neither the halt nor any part of the effect but `st` reads `st`. -/
theorem noInstructionReadsTheSoundTimer : Obligations.NoInstructionReadsTheSoundTimer := by
  unfold Obligations.NoInstructionReadsTheSoundTimer
  intro i s t v run
  obtain ⟨free, rfl⟩ := (exec_next_iff i s t).mp run
  exact ⟨_, exec_of_no_halt ((haltCause_setSt i s v).trans free), effect_setSt free v⟩

/-! ### The host's inputs -/

/-- The state with other key flags, inputs and random bytes. -/
def State.withInputs (s : State) (k : Keys) (q : List StepInput) (d : Nat) : State :=
  { s with keys := k, inputs := q, draws := d }

theorem haltCause_withInputs (i : Instr) (s : State) (k : Keys) (q : List StepInput) (d : Nat) :
    haltCause i (s.withInputs k q d) = haltCause i s := by
  cases i <;> rfl

theorem State.lowestKey_congr {s t : State} (same : t.keyPort = s.keyPort) : t.lowestKey = s.lowestKey := by
  simp [State.lowestKey, State.key, same]

/-- Other inputs stay beside the effect of an instruction that sees the same keys and the same random byte, where it looks
at them. -/
theorem effect_withInputs {i : Instr} {s : State} {k : Keys} {q : List StepInput} {d : Nat}
    (free : haltCause i s = none)
    (keys : ∀ x, i = .skp x ∨ i = .sknp x ∨ i = .ldVxK x → (s.withInputs k q d).keyPort = s.keyPort)
    (rnd : ∀ x nn, i = .rnd x nn → (s.withInputs k q d).rndPort = s.rndPort) :
    effect i (s.withInputs k q d) = (effect i s).withInputs k q d := by
  cases i with
  | skp x | sknp x => simp only [effect, keys x (by simp)]; rfl
  | ldVxK x =>
    simp only [effect, State.lowestKey_congr (keys x (by simp))]
    cases s.lowestKey <;> rfl
  | rnd x nn => simp only [effect, rnd x nn rfl]; rfl
  | call nnn =>
    have h : s.sp.val < 16 := (haltCause_call_eq_none_iff nnn s).mp free
    rw [effect_call nnn h, effect_call (s := s.withInputs k q d) nnn h]
    rfl
  | loadRegs x => simp only [effect, loadRange_eq_foldl]; rfl
  | cls | ret | jp | jpV0 | seImm | sneImm | seReg | sneReg => rfl
  | ldImm | addImm | ldReg | orReg | andReg | xorReg | ldVxDt => rfl
  | addReg | subReg | shr | subn | shl | ldI | addI | ldF | drw => rfl
  | ldDtVx | ldStVx | ldB | storeRegs => rfl

end Sys2Proof.Machine
end

section
/-! Rules over all steps: how a step runs and halts, what a completed step may change, and what it uses of its inputs
(40_step_cycle.md R130 to R133, R140, 60_exceptions.md R260 to R263). -/

namespace Sys2Proof.Machine

/-! ### How a step runs and halts -/

/-- Settles O8: the word of the two bytes is the fetched word, and the rest is the step's definition. -/
theorem stepRunsTheDecodedInstruction : Obligations.StepRunsTheDecodedInstruction := by
  unfold Obligations.StepRunsTheDecodedInstruction
  intro s i hpc decoded
  have inBounds : s.fetchBad = false := s.fetchBad_false_iff.mpr hpc
  have word : decodeWord s.fetchWord = .instr i := (DecodedBytes.word.inj decoded).1
  constructor
  · intro t run
    exact (step_next_iff s _).mpr ⟨inBounds, t, by rw [word]; exact run, rfl⟩
  · intro f run
    exact (step_fault_iff s f).mpr (.inr ⟨inBounds, by rw [word]; exact run⟩)

/-- Only an instruction halts in the execute phase, and with no cause outside its table (60_exceptions.md R261). -/
theorem execDecoded_fault_ne_fetch (d : Decoded) (s : State) (a : Word) :
    execDecoded d s ≠ .fault (.fetchOutOfBounds a) := by
  cases d with
  | unrecognized op => nofun
  | instr i =>
    intro run
    rcases (instructionHaltsExactlyByTable i s _).mp run with
      ⟨_, _, _, h⟩ | ⟨_, _, h⟩ | ⟨_, _, _, _, _, _, h⟩ | ⟨_, _, _, h⟩ | ⟨_, _, _, h⟩ | ⟨_, _, _, h⟩ | ⟨_, _, _, h⟩ <;>
      cases h

/-- Settles O12: the fetch check is the bound, and no execute phase raises its cause. -/
theorem fetchHaltsExactlyPastTheEnd : Obligations.FetchHaltsExactlyPastTheEnd := by
  unfold Obligations.FetchHaltsExactlyPastTheEnd
  intro s
  refine ⟨fun beyond => step_of_pc_ge (by omega), fun within a halts => ?_⟩
  have inBounds : s.fetchBad = false := s.fetchBad_false_iff.mpr within
  rcases (step_fault_iff s _).mp halts with ⟨bad, -⟩ | ⟨-, run⟩
  · simp [inBounds] at bad
  · exact execDecoded_fault_ne_fetch _ _ a run

/-- Settles O14: the fetch check halts, and neither an instruction nor an unrecognized word is refused. -/
theorem noStepIsRefused : Obligations.NoStepIsRefused := by
  unfold Obligations.NoStepIsRefused
  intro s r refused
  unfold step at refused
  split at refused
  · cases refused
  · rw [finishStep_refused_iff] at refused
    cases h : decodeWord s.fetchWord with
    | unrecognized op => simp [h, execDecoded, execUnrecognized] at refused
    | instr i => exact exec_ne_refused i s.beginStep r (by simpa [h, execDecoded] using refused)

/-- A step halts alike with other inputs: its fetch check, its word and the halt of its instruction are the same. -/
theorem step_fault_withInputs (s : State) (k : Keys) (q : List StepInput) (d : Nat) (f : Fault) :
    step s = .fault f ↔ step (s.withInputs k q d) = .fault f := by
  have same : execDecoded (decodeWord s.fetchWord) s.beginStep = .fault f ↔
      execDecoded (decodeWord s.fetchWord) (s.beginStep.withInputs k q d) = .fault f := by
    cases decodeWord s.fetchWord with
    | unrecognized op => exact iff_of_false nofun nofun
    | instr i =>
      change exec i _ = _ ↔ exec i _ = _
      rw [exec_fault_iff, exec_fault_iff, haltCause_withInputs]
  rw [step_fault_iff, step_fault_iff, same]
  rfl

/-- Settles O15: the inputs are no part of what a halt is decided by. -/
theorem haltDoesNotDependOnInputs : Obligations.HaltDoesNotDependOnInputs := by
  unfold Obligations.HaltDoesNotDependOnInputs
  exact step_fault_withInputs

/-! ### What a completed step may change -/

/-- The parts a word may write in the execute phase. -/
def WordWrites (d : Decoded) (p : Part) : Prop :=
  match d with
  | .instr i => Writes i p
  | .unrecognized _ => p ∈ [.pc, .diag]

theorem execDecoded_frame {d : Decoded} {s u : State} (run : execDecoded d s = .next u) :
    State.Frame (WordWrites d) s u := by
  cases d with
  | instr i => exact exec_frame run
  | unrecognized op =>
    obtain rfl := Host.Outcome.next.inj run
    intro p untouched
    cases p with
    | pc | diag => exact absurd (by simp [WordWrites]) untouched
    | reg | sp | entry | I | dt | st | byte | pixel | dirty | keys | inputs | draws | changed | tone => rfl

theorem State.beginStep_frame (s : State) : State.Frame (· ∈ [.changed, .tone, .diag]) s s.beginStep := by
  intro p untouched
  cases p with
  | changed | tone | diag => exact absurd (by decide) untouched
  | reg | sp | entry | I | pc | dt | st | byte | pixel | dirty | keys | inputs | draws => rfl

/-- A completed step changes what its word may write, the timers, the outputs and the inputs. -/
theorem step_frame {s t : State} (completes : step s = .next t) :
    State.Frame (fun p => WordWrites (decodeWord s.fetchWord) p ∨
      p ∈ [.dt, .st, .changed, .tone, .diag, .keys, .inputs, .draws]) s t := by
  obtain ⟨-, u, run, rfl⟩ := (step_next_iff s t).mp completes
  have begins := s.beginStep_frame
  have runs := execDecoded_frame run
  have ends := u.endStep_frame
  refine (begins.mono ?_).trans ((runs.mono ?_).trans (ends.mono ?_))
  · exact fun p h => .inr (by revert p; decide)
  · exact fun p h => .inl h
  · exact fun p h => .inr (by revert p; decide)

/-! ### Which words write a part -/

theorem wordWrites_sp_iff (d : Decoded) :
    WordWrites d .sp ↔ (∃ nnn, d = .instr (.call nnn)) ∨ d = .instr .ret := by
  cases d with
  | unrecognized => simp [WordWrites]
  | instr i => cases i <;> simp [WordWrites, Writes]

/-- A stack entry is written by the words that write `sp`. -/
theorem wordWrites_entry_iff (d : Decoded) (k : Fin 16) : WordWrites d (.entry k) ↔ WordWrites d .sp := by
  cases d with
  | unrecognized => simp [WordWrites]
  | instr i => rfl

theorem wordWrites_byte_iff (d : Decoded) (a : Nat) :
    WordWrites d (.byte a) ↔ (∃ x, d = .instr (.ldB x)) ∨ ∃ x, d = .instr (.storeRegs x) := by
  cases d with
  | unrecognized => simp [WordWrites]
  | instr i => cases i <;> simp [WordWrites, Writes]

theorem wordWrites_I_iff (d : Decoded) :
    WordWrites d .I ↔
      (∃ nnn, d = .instr (.ldI nnn)) ∨ (∃ x, d = .instr (.addI x)) ∨ ∃ x, d = .instr (.ldF x) := by
  cases d with
  | unrecognized => simp [WordWrites]
  | instr i => cases i <;> simp [WordWrites, Writes]

theorem wordWrites_changed_iff (d : Decoded) :
    WordWrites d .changed ↔ d = .instr .cls ∨ ∃ x y n, d = .instr (.drw x y n) := by
  cases d with
  | unrecognized => simp [WordWrites]
  | instr i => cases i <;> simp [WordWrites, Writes]

/-- A pixel and `fb_dirty` are written by the words that raise `changed`. -/
theorem wordWrites_pixel_iff (d : Decoded) (px : Fin 64) (py : Fin 32) :
    WordWrites d (.pixel px py) ↔ WordWrites d .changed := by
  cases d with
  | unrecognized => simp [WordWrites]
  | instr i => rfl

theorem wordWrites_dirty_iff (d : Decoded) : WordWrites d .dirty ↔ WordWrites d .changed := by
  cases d with
  | unrecognized => simp [WordWrites]
  | instr i => rfl

/-- Settles O19: only CALL and RET may write `sp` or an entry. -/
theorem onlyCallAndReturnTouchTheStack : Obligations.OnlyCallAndReturnTouchTheStack := by
  unfold Obligations.OnlyCallAndReturnTouchTheStack
  intro s t completes notCall notRet
  have unwritten : ¬ WordWrites (decodeWord s.fetchWord) .sp := by
    rw [wordWrites_sp_iff]
    exact not_or.mpr ⟨not_exists.mpr notCall, notRet⟩
  have frame := step_frame completes
  refine ⟨frame .sp (not_or.mpr ⟨unwritten, by decide⟩), fun k => frame (.entry k) ?_⟩
  exact not_or.mpr ⟨mt (wordWrites_entry_iff _ k).mp unwritten, by simp⟩

/-- Settles O20: only the two stores may write a byte. -/
theorem onlyStoresWriteMemory : Obligations.OnlyStoresWriteMemory := by
  unfold Obligations.OnlyStoresWriteMemory
  intro s t completes notLdB notStore a
  have unwritten : ¬ WordWrites (decodeWord s.fetchWord) (.byte a) := by
    rw [wordWrites_byte_iff]
    exact not_or.mpr ⟨not_exists.mpr notLdB, not_exists.mpr notStore⟩
  exact step_frame completes (.byte a) (not_or.mpr ⟨unwritten, by simp⟩)

/-- Settles O21: only the three instructions that name `I` as their destination may write it. -/
theorem onlyIndexInstructionsWriteI : Obligations.OnlyIndexInstructionsWriteI := by
  unfold Obligations.OnlyIndexInstructionsWriteI
  intro s t completes notLdI notAddI notLdF
  have unwritten : ¬ WordWrites (decodeWord s.fetchWord) .I := by
    rw [wordWrites_I_iff]
    exact not_or.mpr ⟨not_exists.mpr notLdI, not_or.mpr ⟨not_exists.mpr notAddI, not_exists.mpr notLdF⟩⟩
  exact step_frame completes .I (not_or.mpr ⟨unwritten, by decide⟩)

/-- A completed clear or draw raises `changed` and `fb_dirty`. -/
theorem execDecoded_raises {d : Decoded} {s u : State} (run : execDecoded d s = .next u)
    (mutator : d = .instr .cls ∨ ∃ x y n, d = .instr (.drw x y n)) : u.out.changed = true ∧ u.fbDirty = true := by
  rcases mutator with rfl | ⟨x, y, n, rfl⟩
  · obtain ⟨-, rfl⟩ := (exec_next_iff .cls s u).mp run
    exact ⟨rfl, rfl⟩
  · obtain ⟨-, rfl⟩ := (exec_next_iff (.drw x y n) s u).mp run
    exact ⟨rfl, rfl⟩

/-- Settles O18: the two mutators raise both flags, and no other word may write `changed`, `fb_dirty` or a pixel. -/
theorem framebufferHasTwoMutators : Obligations.FramebufferHasTwoMutators := by
  unfold Obligations.FramebufferHasTwoMutators
  intro s t completes
  obtain ⟨-, u, run, rfl⟩ := (step_next_iff s t).mp completes
  constructor
  · intro mutator
    have raised := execDecoded_raises run mutator
    exact raised
  · intro notCls notDrw
    have unwritten : ¬ WordWrites (decodeWord s.fetchWord) .changed := by
      rw [wordWrites_changed_iff]
      exact not_or.mpr ⟨notCls, by simpa using notDrw⟩
    have frame := execDecoded_frame run
    exact ⟨frame .changed unwritten, frame .dirty (mt (wordWrites_dirty_iff _).mp unwritten),
      fun px py => frame (.pixel px py) (mt (wordWrites_pixel_iff _ px py).mp unwritten)⟩

/-! ### The inputs of a step -/

theorem State.keyPort_congr {s t : State} (inputs : t.inputs = s.inputs) (keys : t.keys = s.keys) :
    t.keyPort = s.keyPort := by
  rw [State.keyPort, State.keyPort, inputs, keys]

/-- No word writes what the host presents. -/
theorem not_wordWrites_of_hostPart (d : Decoded) {p : Part} (h : p ∈ [Part.keys, .inputs, .draws]) :
    ¬ WordWrites d p := by
  cases d with
  | unrecognized =>
    change p ∉ [Part.pc, .diag]
    revert p
    decide
  | instr i => fin_cases h <;> exact not_false

/-- Settles O10: the execute phase leaves the inputs, and the end of the step uses them up. -/
theorem completedStepConsumesItsInputs : Obligations.CompletedStepConsumesItsInputs := by
  unfold Obligations.CompletedStepConsumesItsInputs
  intro s t completes
  obtain ⟨-, u, run, rfl⟩ := (step_next_iff s t).mp completes
  have frame := execDecoded_frame run
  have keys : u.keys = s.keys := frame .keys (not_wordWrites_of_hostPart _ (by simp))
  have inputs : u.inputs = s.inputs := frame .inputs (not_wordWrites_of_hostPart _ (by simp))
  have draws : u.draws = s.draws := frame .draws (not_wordWrites_of_hostPart _ (by simp))
  refine ⟨?_, ?_, ?_⟩
  · rw [State.endStep_inputs, inputs]
  · rw [State.endStep_keys, State.keyPort_congr inputs keys]
  · rw [State.endStep_draws, draws]

/-- Settles O11: the step is the advance with its diagnostic, then the epilogue. -/
theorem unrecognizedWordIsNoOpWithDiagnostic : Obligations.UnrecognizedWordIsNoOpWithDiagnostic := by
  unfold Obligations.UnrecognizedWordIsNoOpWithDiagnostic
  intro s op hpc word
  obtain rfl := decodeWord_unrecognized_name word
  have inBounds : s.fetchBad = false := s.fetchBad_false_iff.mpr hpc
  have completes := (step_next_iff s _).mpr ⟨inBounds, _, by rw [word]; rfl, rfl⟩
  refine ⟨_, completes, rfl, rfl, rfl, rfl, State.endStep_tone_iff _, tickTimer_toNat _, tickTimer_toNat _, ?_⟩
  refine (step_frame completes).mono ?_
  rintro p (written | other)
  · rw [word] at written
    change p ∈ [Part.pc, .diag] at written
    revert p
    decide
  · revert p
    decide

/-- The end of a step, with other inputs, differs in the inputs alone. -/
theorem State.endStep_withInputs_frame (s : State) (k : Keys) (q : List StepInput) (d : Nat) :
    State.Frame (· ∈ [.keys, .inputs, .draws]) s.endStep (s.withInputs k q d).endStep := by
  intro p untouched
  cases p with
  | keys | inputs | draws => exact absurd (by decide) untouched
  | reg | sp | entry | I | pc | dt | st | byte | pixel | dirty | changed | tone | diag => rfl

/-- Settles O16: the execute phase commutes with other inputs, where what it looks at is the same. -/
theorem otherWordsIgnoreTheInputs : Obligations.OtherWordsIgnoreTheInputs := by
  unfold Obligations.OtherWordsIgnoreTheInputs
  intro s t k q d keys rnd completes
  obtain ⟨inBounds, u, run, rfl⟩ := (step_next_iff s t).mp completes
  have run' : execDecoded (decodeWord s.fetchWord) (s.beginStep.withInputs k q d) = .next (u.withInputs k q d) := by
    cases word : decodeWord s.fetchWord with
    | unrecognized op =>
      rw [word] at run
      obtain rfl := Host.Outcome.next.inj run
      rfl
    | instr i =>
      rw [word] at run
      obtain ⟨free, rfl⟩ := (exec_next_iff i _ u).mp run
      refine (exec_next_iff i _ _).mpr ⟨(haltCause_withInputs i _ k q d).trans free, Eq.symm ?_⟩
      exact effect_withInputs free (fun x h => keys x (by simpa [word] using h))
        (fun x nn h => rnd x nn (by simpa [word] using h))
  exact ⟨_, (step_next_iff _ _).mpr ⟨inBounds, _, run', rfl⟩, u.endStep_withInputs_frame k q d⟩

end Sys2Proof.Machine
end

section
/-! CALL, RET, the jump to itself, and the arithmetic with a flag (41_flow.md R150, R151, R153, 42_alu.md R176 to R181). -/

namespace Sys2Proof.Machine

/-! ### Control transfer -/

/-- Settles O34: the push puts `pc` into the entry at the old `sp`. -/
theorem callPushesItsOwnAddress : Obligations.CallPushesItsOwnAddress := by
  unfold Obligations.CallPushesItsOwnAddress
  intro s nnn h
  exact ⟨_, exec_call_of_free nnn h, zextAddr_toNat nnn, rfl, by simp, s.push_jump_frame h _⟩

/-- Settles O35: the pop reads the entry below `sp` and leaves it. -/
theorem returnGoesAfterThePoppedEntry : Obligations.ReturnGoesAfterThePoppedEntry := by
  unfold Obligations.ReturnGoesAfterThePoppedEntry
  intro s h
  exact ⟨_, exec_ret_of_inUse h, Nat.sub_add_cancel h, rfl, s.pop_jump_frame _⟩

/-- Settles O39: the jump leaves `pc` and memory as they were, so the next fetch is the same jump. -/
theorem jumpToSelfMovesOnlyTheTimers : Obligations.JumpToSelfMovesOnlyTheTimers := by
  unfold Obligations.JumpToSelfMovesOnlyTheTimers
  rintro s ⟨inBounds, nnn, word, self⟩
  have completes : step s = .next (s.beginStep.jump (zextAddr nnn)).endStep :=
    (step_next_iff s _).mpr ⟨inBounds, _, by rw [word]; rfl, rfl⟩
  have samePc : s.beginStep.jump (zextAddr nnn) = s.beginStep := by
    rw [self]
    rfl
  rw [samePc] at completes
  refine ⟨_, completes, ⟨inBounds, nnn, word, self⟩, ?_⟩
  refine (s.beginStep_frame.mono ?_).trans (s.beginStep.endStep_frame.mono ?_) <;> decide

/-! ### The flag written before the result -/

/-- All that the shape of R176 to R180 does: the result is computed with the flag in VF, and the flag stays there unless the
result lands on it. -/
theorem flagThenResult_completes (x : RegIdx) (flag : Byte) (result : State → Byte) (s : State) :
    ∃ t, flagThenResult x flag result s = .next t ∧ t.pc = s.pc + 2 ∧ t.reg x = result (s.setReg vF flag) ∧
      (x ≠ 15 → t.reg 15 = flag) ∧ State.Frame (· ∈ [.pc, .reg x, .reg 15]) s t := by
  refine ⟨s.flagged x flag result, rfl, rfl, by simp [State.flagged], fun notF => ?_, s.flagged_frame x flag result⟩
  simp [State.flagged, Ne.symm notF]

theorem carryFlag_toNat (a b : Byte) : (carryFlag a b).toNat = if 255 < a.toNat + b.toNat then 1 else 0 := by
  have carries : 255 - a.toNat < b.toNat ↔ 255 < a.toNat + b.toNat := by omega
  simp only [carryFlag, flagByte, carries, decide_eq_true_eq]
  split <;> rfl

theorem noBorrowFlag_toNat (a b : Byte) : (noBorrowFlag a b).toNat = if a.toNat < b.toNat then 0 else 1 := by
  by_cases borrow : a.toNat < b.toNat <;> simp [noBorrowFlag, flagByte, borrow]

theorem sub_toNat_mod (a b : Byte) : (a - b).toNat = (a.toNat + 256 - b.toNat) % 256 := by
  rw [BitVec.toNat_sub]
  omega

/-- A subtraction of register `q` from register `p`: both read as they are once the flag `c` is in VF. -/
theorem difference_completes (s : State) (x p q : RegIdx) (c : Nat)
    (hc : c = if (s.reg p).toNat < (s.reg q).toNat then 0 else 1) :
    ∃ t, flagThenResult x (noBorrowFlag (s.reg p) (s.reg q)) (fun t => t.reg p - t.reg q) s = .next t ∧
      t.pc = s.pc + 2 ∧
      (t.reg x).toNat = ((if p = 15 then c else (s.reg p).toNat) + 256 - if q = 15 then c else (s.reg q).toNat) % 256 ∧
      (x ≠ 15 → (t.reg 15).toNat = c) ∧ State.Frame (· ∈ [.pc, .reg x, .reg 15]) s t := by
  obtain ⟨t, run, pc, result, flag, frame⟩ :=
    flagThenResult_completes x (noBorrowFlag (s.reg p) (s.reg q)) (fun t => t.reg p - t.reg q) s
  have noBorrow : (noBorrowFlag (s.reg p) (s.reg q)).toNat = c := (noBorrowFlag_toNat _ _).trans hc.symm
  refine ⟨t, run, pc, ?_, fun notX => by rw [flag notX, noBorrow], frame⟩
  rw [result, sub_toNat_mod, State.reg_setReg, State.reg_setReg]
  split <;> split <;> simp [noBorrow]

/-- Settles O42: the sum is of the two registers as they read once the carry is in VF. -/
theorem addRegistersWithCarry : Obligations.AddRegistersWithCarry := by
  unfold Obligations.AddRegistersWithCarry
  rintro s x y a b c rfl rfl hc
  obtain ⟨t, run, pc, result, flag, frame⟩ :=
    flagThenResult_completes x (carryFlag (s.reg x) (s.reg y)) (fun t => t.reg x + t.reg y) s
  have carry : (carryFlag (s.reg x) (s.reg y)).toNat = c := (carryFlag_toNat _ _).trans hc.symm
  have small : c ≤ 1 := by rw [hc]; split <;> omega
  refine ⟨t, run, pc, fun notX notY => ?_, fun isX notY => ?_, fun notX isY => ?_, fun isX isY => ?_, frame⟩
  · simp [result, notX, notY, flag, carry]
  · subst isX
    simp [result, notY, carry]
  · subst isY
    simp [result, notX, flag, carry]
  · subst isX isY
    simp [result, carry]
    omega

/-- Settles O43: `difference_completes` with the destination as the minuend. -/
theorem subtractRegistersWithBorrow : Obligations.SubtractRegistersWithBorrow := by
  unfold Obligations.SubtractRegistersWithBorrow
  rintro s x y a b c rfl rfl hc
  obtain ⟨t, run, pc, result, flag, frame⟩ := difference_completes s x x y c hc
  refine ⟨t, run, pc, fun notX notY => ?_, fun isX notY => ?_, fun notX isY => ?_, fun isX isY => ?_, frame⟩
  · simpa [notX, notY, flag] using result
  · simpa [isX, notY] using result
  · simpa [notX, isY, flag] using result
  · simpa [isX, isY] using result

/-- Settles O44: `difference_completes` with the destination as the subtrahend. -/
theorem subtractReversedWithBorrow : Obligations.SubtractReversedWithBorrow := by
  unfold Obligations.SubtractReversedWithBorrow
  rintro s x y a b c rfl rfl hc
  obtain ⟨t, run, pc, result, flag, frame⟩ := difference_completes s x y x c hc
  refine ⟨t, run, pc, fun notX notY => ?_, fun isX notY => ?_, fun notX isY => ?_, fun isX isY => ?_, frame⟩
  · simpa [notX, notY, flag] using result
  · simpa [isX, notY] using result
  · simpa [notX, isY, flag] using result
  · simpa [isX, isY] using result

theorem shrFlag_toNat (v : Byte) : (shrFlag v).toNat = v.toNat % 2 := by
  rw [shrFlag, BitVec.toNat_and]
  exact Nat.and_one_is_mod _

theorem shlFlag_toNat (v : Byte) : (shlFlag v).toNat = v.toNat / 128 := by
  revert v
  decide

/-- Settles O45: the shift is of VX as it reads once the bit shifted out is in VF; Y is read by neither. -/
theorem shiftsInPlaceWithBitOut : Obligations.ShiftsInPlaceWithBitOut := by
  unfold Obligations.ShiftsInPlaceWithBitOut
  rintro s x y a rfl
  constructor
  · obtain ⟨t, run, pc, result, flag, frame⟩ :=
      flagThenResult_completes x (shrFlag (s.reg x)) (fun t => t.reg x >>> 1) s
    refine ⟨t, run, pc, fun notX => ⟨?_, ?_⟩, fun isX => ?_, frame⟩
    · simp [result, notX, Nat.shiftRight_eq_div_pow]
    · rw [flag notX, shrFlag_toNat]
    · subst isX
      simp [result, Nat.shiftRight_eq_div_pow, shrFlag_toNat]
  · obtain ⟨t, run, pc, result, flag, frame⟩ :=
      flagThenResult_completes x (shlFlag (s.reg x)) (fun t => t.reg x <<< 1) s
    refine ⟨t, run, pc, fun notX => ⟨?_, ?_⟩, fun isX => ?_, frame⟩
    · simp [result, notX, Nat.shiftLeft_eq]
    · rw [flag notX, shlFlag_toNat]
    · subst isX
      simp [result, Nat.shiftLeft_eq, shlFlag_toNat]
      split <;> omega

/-- Settles O46: a load of the masked byte, and the byte is the one the head of the inputs presents. -/
theorem randomByteIsMasked : Obligations.RandomByteIsMasked := by
  unfold Obligations.RandomByteIsMasked
  intro s x nn
  refine ⟨loadReg_completes x (s.rndPort &&& nn) s, fun keys r q presented => ?_⟩
  simp [State.rndPort, presented]

end Sys2Proof.Machine
end

section
/-! The index register, memory through it, the keypad and the timers (43_index_memory.md R201, R203 to R205,
45_keypad_timers.md R240 to R245). -/

namespace Sys2Proof.Machine

/-! ### Index register and memory -/

/-- Settles O48: the 16-bit sum, with the zero-extended register. -/
theorem indexAddWrapsAtSixteenBits : Obligations.IndexAddWrapsAtSixteenBits := by
  unfold Obligations.IndexAddWrapsAtSixteenBits
  intro s x
  refine ⟨_, exec_of_no_halt (i := .addI x) rfl, ?_, rfl, s.setI_advance_frame _ 2⟩
  change (s.I + zextByte (s.reg x)).toNat = _
  rw [BitVec.toNat_add, zextByte_toNat]

/-- The three digits are at most 9 and are worth the byte. -/
theorem bcdDigits_spec (v : Byte) : ∃ h t o : Byte, bcdDigits v = [h, t, o] ∧
    h.toNat * 100 + t.toNat * 10 + o.toNat = v.toNat ∧ h.toNat ≤ 9 ∧ t.toNat ≤ 9 ∧ o.toNat ≤ 9 := by
  refine ⟨_, _, _, rfl, ?_⟩
  simp only [BitVec.toNat_ofNat]
  omega

/-- Settles O49: a run of three writes, of digits that are worth VX. -/
theorem decimalDigitsAreStored : Obligations.DecimalDigitsAreStored := by
  unfold Obligations.DecimalDigitsAreStored
  intro s x inBounds
  have free : haltCause (.ldB x) s = none := (dataHalt_eq_none_iff _ 3 s).mpr (by omega)
  obtain ⟨h, t, o, digits, value, hLe, tLe, oLe⟩ := bcdDigits_spec (s.reg x)
  have read : ∀ a, (effect (.ldB x) s).mem.byteAt a = (s.mem.setList s.I.toNat [h, t, o]).byteAt a :=
    fun a => by rw [← digits]; rfl
  have byte0 : (effect (.ldB x) s).mem.byteAt s.I.toNat = h := by simp [read, Memory.byteAt_setList]
  have byte1 : (effect (.ldB x) s).mem.byteAt (s.I.toNat + 1) = t := by simp [read, Memory.byteAt_setList]
  have byte2 : (effect (.ldB x) s).mem.byteAt (s.I.toNat + 2) = o := by simp [read, Memory.byteAt_setList]
  refine ⟨_, exec_of_no_halt free, rfl, by rw [byte0, byte1, byte2, value], fun k hk => ?_, ?_⟩
  · obtain rfl | rfl | rfl : k = 0 ∨ k = 1 ∨ k = 2 := by omega
    · rwa [Nat.add_zero, byte0]
    · rwa [byte1]
    · rwa [byte2]
  · refine (State.setMem_advance_frame (stored := fun a => ∃ k, k < 3 ∧ a = s.I.toNat + k) ?_ 2).mono ?_
    · intro a outside
      rw [Memory.byteAt_setList, dif_neg]
      rintro ⟨le, lt⟩
      exact outside ⟨a - s.I.toNat, by simp [bcdDigits] at lt; omega, by omega⟩
    · rintro p (rfl | ⟨a, ⟨k, hk, rfl⟩, rfl⟩)
      · exact .inl rfl
      · exact .inr ⟨k, hk, rfl⟩

/-- Settles O50: the bytes of the range hold their registers, and every other byte is outside it. -/
theorem registersAreStored : Obligations.RegistersAreStored := by
  unfold Obligations.RegistersAreStored
  intro s x inBounds
  refine ⟨_, exec_storeRegs_of_le inBounds, rfl, fun i hi => ?_, ?_⟩
  · exact byteAt_storeRange_mem s _ i ((mem_regsUpTo x i).mpr hi)
  · refine (State.setMem_advance_frame (stored := fun a => ∃ i ≤ x, a = s.dataAddr i.val) ?_ 2).mono ?_
    · intro a outside
      refine byteAt_storeRange_other s _ a fun i inRange same => ?_
      exact outside ⟨i, (mem_regsUpTo x i).mp inRange, same.symm⟩
    · rintro p (rfl | ⟨a, ⟨i, hi, rfl⟩, rfl⟩)
      · exact .inl rfl
      · exact .inr ⟨i, hi, rfl⟩

/-- Settles O51: the registers of the range hold their bytes, and every other register is outside it. -/
theorem registersAreLoaded : Obligations.RegistersAreLoaded := by
  unfold Obligations.RegistersAreLoaded
  intro s x inBounds
  refine ⟨_, exec_loadRegs_of_le inBounds, by simp [loadRange_eq_foldl], fun i hi => ?_, ?_⟩
  · exact reg_loadRange_mem s ((mem_regsUpTo x i).mpr hi)
  · refine (loadRange_advance_frame s _ 2).mono ?_
    rintro p (rfl | ⟨i, inRange, rfl⟩)
    · exact .inl rfl
    · exact .inr ⟨i, (mem_regsUpTo x i).mp inRange, rfl⟩

/-! ### Keypad and timers -/

/-- Settles O57: both skips are an advance by the flag of key VX. -/
theorem skipsOnKey : Obligations.SkipsOnKey := by
  unfold Obligations.SkipsOnKey
  intro s x h
  have flag : s.keyPort[(s.reg x).toNat]? = some s.keyPort[(s.reg x).toNat] := Vector.getElem?_eq_getElem h
  constructor
  · refine ⟨_, exec_of_no_halt (i := .skp x) (if_pos h), ?_, s.advance_frame _⟩
    simp only [effect, flag, Option.some.injEq, State.advance_pc]
  · refine ⟨_, exec_of_no_halt (i := .sknp x) (if_pos h), ?_, s.advance_frame _⟩
    cases level : s.keyPort[(s.reg x).toNat] <;> simp [effect, flag, level]

/-- Settles O58: the lowest pressed key decides between waiting and a load of its index. -/
theorem waitForKeyHoldsPcOrStoresTheLowest : Obligations.WaitForKeyHoldsPcOrStoresTheLowest := by
  unfold Obligations.WaitForKeyHoldsPcOrStoresTheLowest
  intro s x
  constructor
  · intro noKey
    have waits : effect (.ldVxK x) s = s := by simp [effect, s.lowestKey_eq_none noKey]
    refine ⟨_, exec_of_no_halt rfl, ?_⟩
    rw [waits]
    exact fun p _ => .refl s p
  · intro k pressed lowest
    have loads : exec (.ldVxK x) s = loadReg x (BitVec.ofNat 8 k.val) s := by
      change execLdVxK x s = _
      simp [execLdVxK, s.lowestKey_eq_some k pressed lowest]
    obtain ⟨t, run, value, pc, frame⟩ := loadReg_completes x (BitVec.ofNat 8 k.val) s
    refine ⟨t, loads.trans run, ?_, pc, frame⟩
    rw [value, BitVec.toNat_ofNat]
    omega

/-- A step whose word is an instruction that completes. -/
theorem step_of_effect {s : State} {i : Instr} (hpc : s.pc.toNat + 1 < 4096) (word : decodeWord s.fetchWord = .instr i)
    (free : haltCause i s.beginStep = none) : step s = .next (effect i s.beginStep).endStep :=
  (step_next_iff s _).mpr ⟨s.fetchBad_false_iff.mpr hpc, _, by rw [word]; exact exec_of_no_halt free, rfl⟩

/-- Settles O59: a load of `dt`, and the tick comes at the end of the step. -/
theorem delayTimerIsReadBeforeTheTick : Obligations.DelayTimerIsReadBeforeTheTick := by
  unfold Obligations.DelayTimerIsReadBeforeTheTick
  intro s x
  refine ⟨loadReg_completes x s.dt s, fun hpc word => ?_⟩
  exact ⟨_, step_of_effect hpc word rfl, s.beginStep.reg_setReg_same x s.dt, tickTimer_toNat s.dt⟩

/-- Settles O60: each load writes its timer, and the tick comes at the end of the step. -/
theorem timersAreLoadedBeforeTheTick : Obligations.TimersAreLoadedBeforeTheTick := by
  unfold Obligations.TimersAreLoadedBeforeTheTick
  intro s x
  refine ⟨⟨_, exec_ldDtVx x s, rfl, rfl, s.setDt_advance_frame _ 2⟩,
    ⟨_, exec_ldStVx x s, rfl, rfl, s.setSt_advance_frame _ 2⟩, fun hpc word => ?_, fun hpc word => ?_⟩
  · exact ⟨_, step_of_effect hpc word rfl, tickTimer_toNat (s.reg x), tickTimer_toNat s.st⟩
  · exact ⟨_, step_of_effect hpc word rfl, tickTimer_toNat (s.reg x), tickTimer_toNat s.dt, State.endStep_tone_iff _⟩

end Sys2Proof.Machine
end

section
/-! The clear and the draw (44_display.md R220 to R226). -/

namespace Sys2Proof.Machine

/-- Settles O53: every pixel of a cleared framebuffer is unset, and a mutator raises both flags. -/
theorem clearUnsetsEveryPixel : Obligations.ClearUnsetsEveryPixel := by
  unfold Obligations.ClearUnsetsEveryPixel
  refine ⟨by decide, fun s => ⟨_, exec_of_no_halt (i := .cls) rfl, Framebuffer.pixel_clear, rfl, rfl, rfl, ?_⟩⟩
  refine (State.drawn_advance_frame (inverted := fun _ _ => True) (by simp) 2).mono ?_
  rintro p (rfl | rfl | rfl | ⟨px, py, -, rfl⟩)
  · exact .inl rfl
  · exact .inr (.inl rfl)
  · exact .inr (.inr (.inl rfl))
  · exact .inr (.inr (.inr ⟨px, py, rfl⟩))

/-- The coordinate of the origin a draw reads from a register: 0 from VF, which is cleared first (R225). -/
def State.origin (s : State) (r : RegIdx) : Byte := (s.setReg vF 0).reg r

theorem State.origin_toNat (s : State) (r : RegIdx) : (s.origin r).toNat = if r = 15 then 0 else (s.reg r).toNat := by
  rw [State.origin, State.reg_setReg]
  split <;> rfl

/-- The pixels a draw inverts (R223, R224). -/
def State.covers (s : State) (x y : RegIdx) (n : Nibble) (px : Fin 64) (py : Fin 32) : Bool :=
  spriteCovers s.mem s.I.toNat (s.origin x) (s.origin y) (List.range n.toNat) px py

/-- The canvas of a draw: the covered pixels inverted, and the flag raised iff one of them was set (R221, R222). -/
theorem State.canvas_spec (s : State) (x y : RegIdx) (n : Nibble) :
    (∀ px py, (s.canvas x y n).fb.pixel px py = (s.fb.pixel px py ^^ s.covers x y n px py)) ∧
    (s.canvas x y n).vf = if ∃ px py, s.covers x y n px py = true ∧ s.fb.pixel px py = true then 1 else 0 := by
  obtain ⟨pixels, flag⟩ := drawSprite_spec s.mem s.I.toNat (s.origin x) (s.origin y) n.toNat (by omega)
    ⟨s.fb, (s.setReg vF 0).reg vF⟩
  exact ⟨pixels, flag.trans (if_congr Iff.rfl rfl (s.reg_setReg_same vF 0))⟩

theorem effect_drw_vF (s : State) (x y : RegIdx) (n : Nibble) :
    (effect (.drw x y n) s).reg 15 = (s.canvas x y n).vf := by
  simp [effect]

theorem effect_drw_frame (s : State) (x y : RegIdx) (n : Nibble) :
    State.Frame (fun p => p = .pc ∨ p = .reg 15 ∨ p = .changed ∨ p = .dirty ∨
      ∃ px py, s.covers x y n px py = true ∧ p = .pixel px py) s (effect (.drw x y n) s) := by
  refine drawn_setReg_frame (fun px py notCovered => ?_) _ _ 2
  rw [(s.canvas_spec x y n).1, Bool.eq_false_of_not_eq_true notCovered, Bool.xor_false]

/-- Settles O54: the covered pixels are those of `spriteCovers_iff`, from the origin with VF cleared. -/
theorem drawInvertsExactlyTheSprite : Obligations.DrawInvertsExactlyTheSprite := by
  unfold Obligations.DrawInvertsExactlyTheSprite
  rintro s x y n ox oy covered hox hoy hcovered inBounds
  have covers : ∀ px py, covered px py ↔ s.covers x y n px py = true := by
    intro px py
    rw [hcovered, State.covers, spriteCovers_iff, State.origin_toNat, State.origin_toNat, hox, hoy]
  have free : haltCause (.drw x y n) s = none := (dataHalt_eq_none_iff _ n.toNat s).mpr inBounds
  obtain ⟨pixels, flag⟩ := s.canvas_spec x y n
  simp only [covers]
  refine ⟨_, exec_of_no_halt free, rfl, fun px py isCovered => ?_, ?_, ?_, rfl, rfl, effect_drw_frame s x y n⟩
  · exact (pixels px py).trans (by rw [isCovered, Bool.xor_true])
  · rw [effect_drw_vF, flag]
    split
    · exact .inl rfl
    · exact .inr rfl
  · rw [effect_drw_vF, flag]
    split
    next collision => exact iff_of_true rfl collision
    next noCollision => exact iff_of_false (by decide) noCollision

/-- Settles O55: a covered pixel that was set goes from set to unset, and no other pixel does. -/
theorem collisionIffAPixelWasUnset : Obligations.CollisionIffAPixelWasUnset := by
  unfold Obligations.CollisionIffAPixelWasUnset
  intro s t x y n run
  obtain ⟨-, rfl⟩ := (exec_next_iff (.drw x y n) s t).mp run
  obtain ⟨pixels, flag⟩ := s.canvas_spec x y n
  have after : ∀ px py, (effect (.drw x y n) s).fb.pixel px py = (s.fb.pixel px py ^^ s.covers x y n px py) := pixels
  simp only [effect_drw_vF, flag, after]
  split
  next collision =>
    obtain ⟨px, py, isCovered, wasSet⟩ := collision
    exact .inl ⟨rfl, px, py, wasSet, by rw [wasSet, isCovered]; rfl⟩
  next noCollision =>
    refine .inr ⟨rfl, fun px py wasSet => ?_⟩
    have notCovered : s.covers x y n px py = false :=
      Bool.eq_false_of_not_eq_true fun isCovered => noCollision ⟨px, py, isCovered, wasSet⟩
    rw [wasSet, notCovered, Bool.xor_false]

/-- A draw leaves the origin a second one reads: VF is cleared again, and no other register changed. -/
theorem origin_effect_drw (s : State) (x y r : RegIdx) (n : Nibble) : (effect (.drw x y n) s).origin r = s.origin r := by
  by_cases isF : r = 15
  · simp [State.origin, isF]
  · simp [State.origin, effect, isF]

/-- Settles O56: the second draw covers the same pixels, so it inverts each back, and finds set those the first one set. -/
theorem drawTwiceRestoresTheFramebuffer : Obligations.DrawTwiceRestoresTheFramebuffer := by
  unfold Obligations.DrawTwiceRestoresTheFramebuffer
  intro s t x y n run
  obtain ⟨free, rfl⟩ := (exec_next_iff (.drw x y n) s t).mp run
  have free' : haltCause (.drw x y n) (effect (.drw x y n) s) = none :=
    (dataHalt_eq_none_iff _ _ _).mpr ((dataHalt_eq_none_iff _ n.toNat s).mp free)
  have sameCovers : ∀ px py, (effect (.drw x y n) s).covers x y n px py = s.covers x y n px py := by
    intro px py
    rw [State.covers, origin_effect_drw, origin_effect_drw]
    rfl
  have after : ∀ px py, (effect (.drw x y n) s).fb.pixel px py = (s.fb.pixel px py ^^ s.covers x y n px py) :=
    (s.canvas_spec x y n).1
  obtain ⟨pixels, flag⟩ := (effect (.drw x y n) s).canvas_spec x y n
  refine ⟨_, exec_of_no_halt free', fun px py => ?_, ?_⟩
  · refine (pixels px py).trans ?_
    rw [sameCovers, after, Bool.xor_assoc, Bool.xor_self, Bool.xor_false]
  · have setByFirst : ∀ px py, (s.covers x y n px py = true ∧ (effect (.drw x y n) s).fb.pixel px py = true) ↔
        (s.fb.pixel px py = false ∧ (effect (.drw x y n) s).fb.pixel px py = true) := by
      intro px py
      rw [after]
      cases s.covers x y n px py <;> cases s.fb.pixel px py <;> decide
    simp only [effect_drw_vF, flag, sameCovers, setByFirst]
    split
    next found => exact iff_of_true rfl found
    next notFound => exact iff_of_false (by decide) notFound

end Sys2Proof.Machine
end

section
/-! The invariant of every reachable state, reset and the host's moves (10_state.md R44, 41_flow.md R153,
70_reset_and_hazards.md R300 to R308). -/

namespace Sys2Proof.Machine

/-! ### The execute phase keeps the invariant -/

/-- An instruction that completes writes inside memory alone, so the canonical form stays. -/
theorem effect_mem_wf {i : Instr} {s : State} (free : haltCause i s = none) (wf : s.mem.wf = true) :
    (effect i s).mem.wf = true := by
  cases i with
  | ldB x =>
    have inBounds := (dataHalt_eq_none_iff _ 3 s).mp free
    refine Memory.wf_setList _ s.mem s.I.toNat wf ?_
    change s.I.toNat + 3 ≤ 4096
    omega
  | storeRegs x =>
    have inBounds := (dataHalt_eq_none_iff _ (x.val + 1) s).mp free
    refine wf_storeRange s (regsUpTo x) wf fun i inRange => ?_
    have le : i.val ≤ x.val := (mem_regsUpTo x i).mp inRange
    simp only [State.dataAddr]
    omega
  | call nnn =>
    rw [effect_call nnn ((haltCause_call_eq_none_iff nnn s).mp free)]
    exact wf
  | ldVxK x =>
    simp only [effect]
    cases s.lowestKey <;> exact wf
  | loadRegs x =>
    simp only [effect, loadRange_eq_foldl]
    exact wf
  | cls | ret | jp | jpV0 | seImm | sneImm | seReg | sneReg | skp | sknp => exact wf
  | ldImm | addImm | ldReg | orReg | andReg | xorReg | rnd | ldVxDt => exact wf
  | addReg | subReg | shr | subn | shl | ldI | addI | ldF | drw | ldDtVx | ldStVx => exact wf

/-- Where the fetch was in bounds, an advance by 2 or 4 stays far below 0x10FE. -/
theorem toNat_skip_le {pc : Word} (h : pc.toNat ≤ 4094) (c : Prop) [Decidable c] :
    (pc + (if c then 4 else 2)).toNat ≤ 0x10FE := by
  split <;> bv_omega

theorem toNat_add_two_le {pc : Word} (h : pc.toNat ≤ 4094) : (pc + 2).toNat ≤ 0x10FE := by
  bv_omega

/-- The largest `pc` an instruction can leave is the one of `JP V0, 0xFFF` with V0 = 0xFF (10_state.md R44). -/
theorem exec_pc_le {i : Instr} {s t : State} (run : exec i s = .next t) (fetched : s.pc.toNat ≤ 4094)
    (entries : ∀ k : Fin 16, s.stack[k.val].toNat ≤ 4094) : t.pc.toNat ≤ 0x10FE := by
  have table := pcAfterEachInstruction i s t run
  cases i with
  | jp nnn | call nnn =>
    have pc : t.pc.toNat = nnn.toNat := table
    omega
  | jpV0 nnn =>
    have pc : t.pc.toNat = nnn.toNat + (s.reg 0).toNat := table
    omega
  | ret =>
    obtain ⟨inUse, pc⟩ := table
    rw [pc]
    exact toNat_add_two_le (entries ⟨s.sp.val - 1, by omega⟩)
  | seImm | sneImm | seReg | sneReg | skp | sknp =>
    exact (congrArg BitVec.toNat table).trans_le (toNat_skip_le fetched _)
  | ldVxK x =>
    refine (congrArg BitVec.toNat table).trans_le ?_
    split
    · omega
    · exact toNat_add_two_le fetched
  | cls | ldImm | addImm | ldReg | orReg | andReg | xorReg | rnd | ldVxDt | addReg | subReg | shr | subn | shl | ldI
  | addI | ldF | drw | ldB | storeRegs | loadRegs | ldDtVx | ldStVx =>
    exact (congrArg BitVec.toNat table).trans_le (toNat_add_two_le fetched)

/-- The one entry an instruction can write is the address of a CALL. -/
theorem exec_entries_le {i : Instr} {s t : State} (run : exec i s = .next t) (fetched : s.pc.toNat ≤ 4094)
    (entries : ∀ k : Fin 16, s.stack[k.val].toNat ≤ 4094) (k : Fin 16) : t.stack[k.val].toNat ≤ 4094 := by
  cases i with
  | call nnn =>
    obtain ⟨free, rfl⟩ := (exec_next_iff (.call nnn) s t).mp run
    have h : s.sp.val < 16 := (haltCause_call_eq_none_iff nnn s).mp free
    rw [effect_call nnn h]
    refine (congrArg BitVec.toNat (s.entry_push s.pc h k)).trans_le ?_
    split
    · exact fetched
    · exact entries k
  | ret =>
    obtain ⟨-, rfl⟩ := (exec_next_iff .ret s t).mp run
    exact entries k
  | _ => exact (congrArg BitVec.toNat (exec_frame run (.entry k) not_false)).trans_le (entries k)

/-- The execute phase of any word keeps the invariant, where its fetch was in bounds. -/
theorem execDecoded_inv {d : Decoded} {s u : State} (run : execDecoded d s = .next u) (fetched : s.pc.toNat ≤ 4094)
    (inv : s.Inv) : u.Inv := by
  obtain ⟨wf, -, entries⟩ := inv
  cases d with
  | unrecognized op =>
    obtain rfl := Host.Outcome.next.inj run
    exact ⟨wf, toNat_add_two_le fetched, entries⟩
  | instr i =>
    refine ⟨?_, exec_pc_le run fetched entries, exec_entries_le run fetched entries⟩
    obtain ⟨free, rfl⟩ := (exec_next_iff i s u).mp run
    exact effect_mem_wf free wf

/-- Settles O25: the invariant reads memory, `pc` and the stack, which only the execute phase changes. -/
theorem stepKeepsInvariant : Obligations.StepKeepsInvariant := by
  unfold Obligations.StepKeepsInvariant
  intro s t inv completes
  obtain ⟨inBounds, u, run, rfl⟩ := (step_next_iff s t).mp completes
  have fetched : s.pc.toNat ≤ 4094 := by
    have := s.fetchBad_false_iff.mp inBounds
    omega
  have kept : u.Inv := execDecoded_inv run fetched inv
  exact kept

/-! ### Reset and the host's moves -/

theorem byteAt_resetWith (font : Vector Byte Config.fontLen) (a : Nat) :
    (State.resetWith font).mem.byteAt a = if h : a < Config.fontLen then font[a] else 0 := by
  refine (Memory.byteAt_setList font.toList [] 0 a).trans ?_
  by_cases h : a < Config.fontLen
  · simp [h]
  · simp [h, Memory.unlisted]

theorem resetWith_inv (font : Vector Byte Config.fontLen) : (State.resetWith font).Inv := by
  refine ⟨Memory.wf_setList font.toList [] 0 Memory.wf_nil ?_, (by decide : State.reset.pc.toNat ≤ 0x10FE), fun k => ?_⟩
  · rw [Vector.length_toList]
    decide
  · simp [State.resetWith, State.reset]

/-- The default font is what memory reads as where it lists nothing. -/
theorem resetWith_default : State.resetWith Config.font = State.reset := by
  have listsNothing : (State.resetWith Config.font).mem = [] := by
    refine Memory.ext_of_wf _ _ (resetWith_inv Config.font).1 Memory.wf_nil fun a => ?_
    rw [byteAt_resetWith]
    rfl
  exact congrArg (fun m => { State.reset with mem := m }) listsNothing

/-- Settles O26: reset writes the font into an empty memory. -/
theorem resetMeetsInvariant : Obligations.ResetMeetsInvariant := by
  unfold Obligations.ResetMeetsInvariant
  exact ⟨resetWith_default ▸ resetWith_inv Config.font, resetWith_inv⟩

/-- Settles O27: a reset starts anew, a load writes below 4096, and the other moves leave what the invariant reads. -/
theorem hostMovesKeepInvariant : Obligations.HostMovesKeepInvariant := by
  unfold Obligations.HostMovesKeepInvariant
  intro s m inv
  cases m with
  | reset font => exact resetWith_inv font
  | load bytes =>
    obtain ⟨wf, pc, entries⟩ := inv
    simp only [State.hostMove, hostLoad]
    split
    next fits =>
      have inMemory : 0x200 + bytes.length ≤ 4096 := Nat.add_le_add_left fits 0x200
      exact ⟨Memory.wf_setList bytes s.mem Config.progBase wf inMemory, pc, entries⟩
    next => exact ⟨wf, pc, entries⟩
  | setKeys | supplyRnd | readClearDirty => exact inv

/-- Settles O28: by induction over the moves that reach the state. -/
theorem reachableStatesMeetInvariant : Obligations.ReachableStatesMeetInvariant := by
  unfold Obligations.ReachableStatesMeetInvariant
  intro s reachable
  induction reachable with
  | reset font inputs => exact resetWith_inv font
  | step _ completes ih => exact stepKeepsInvariant _ _ ih completes
  | host m _ ih => exact hostMovesKeepInvariant _ m ih

/-- Settles O29: every field is that of `State.reset`, memory holds the font and zeros. -/
theorem resetGivesTheTabledState : Obligations.ResetGivesTheTabledState := by
  unfold Obligations.ResetGivesTheTabledState
  refine ⟨resetWith_default, fun font => ?_⟩
  refine ⟨fun r => ?_, rfl, rfl, rfl, fun k => ?_, rfl, rfl, fun a h => ?_, fun a h => ?_, fun px py => ?_, rfl, fun k => ?_⟩
  · simp [State.reg, State.resetWith, State.reset]
  · simp [State.resetWith, State.reset]
  · rw [byteAt_resetWith, dif_pos h]
  · rw [byteAt_resetWith, dif_neg (not_lt.mpr h)]
  · exact Framebuffer.pixel_clear px py
  · simp [State.resetWith, State.reset]

/-- Settles O30: a run of writes from 0x200, or no state. -/
theorem programLoadWritesOnlyTheProgram : Obligations.ProgramLoadWritesOnlyTheProgram := by
  unfold Obligations.ProgramLoadWritesOnlyTheProgram
  intro s bytes
  constructor
  · intro fits
    refine ⟨_, if_pos fits, fun j hj => ?_, fun p untouched => ?_⟩
    · simp [Memory.byteAt_setList, hj]
    · cases p with
      | byte a =>
        refine (Memory.byteAt_setList bytes s.mem Config.progBase a).trans (dif_neg ?_)
        rintro ⟨le, lt⟩
        change 0x200 ≤ a at le
        change a < 0x200 + bytes.length at lt
        exact untouched ⟨a - 0x200, by omega, congrArg Part.byte (by omega)⟩
      | reg | I | pc | sp | entry | dt | st | pixel | dirty | keys | inputs | draws | changed | tone | diag => rfl
  · intro long
    have rejected : hostLoad bytes s = none := if_neg (not_le.mpr long)
    exact ⟨rejected, by rw [State.hostMove, rejected, Option.getD_none]⟩

/-- Settles O31: each move is an update of the fields it names. -/
theorem hostMovesTouchOnlyTheirOwn : Obligations.HostMovesTouchOnlyTheirOwn := by
  unfold Obligations.HostMovesTouchOnlyTheirOwn
  intro s
  refine ⟨fun keys => ⟨?_, ?_, fun p untouched => ?_⟩, fun b => ⟨?_, ?_, fun p untouched => ?_⟩,
    ⟨rfl, rfl, fun p untouched => ?_⟩, fun font p untouched => ?_⟩
  · cases h : s.inputs <;> simp [State.hostMove, hostSetKeys, State.keyPort, presentNext, h]
  · cases h : s.inputs <;> simp [State.hostMove, hostSetKeys, State.rndPort, presentNext, h]
  · cases p with
    | keys | inputs => exact absurd (by decide) untouched
    | reg | I | pc | sp | entry | dt | st | byte | pixel | dirty | draws | changed | tone | diag => rfl
  · cases h : s.inputs <;> simp [State.hostMove, hostSupplyRnd, State.rndPort, presentNext, h]
  · cases h : s.inputs <;> simp [State.hostMove, hostSupplyRnd, State.keyPort, presentNext, h]
  · cases p with
    | inputs => exact absurd (by decide) untouched
    | reg | I | pc | sp | entry | dt | st | byte | pixel | dirty | keys | draws | changed | tone | diag => rfl
  · cases p with
    | dirty => exact absurd (by decide) untouched
    | reg | I | pc | sp | entry | dt | st | byte | pixel | keys | inputs | draws | changed | tone | diag => rfl
  · cases p with
    | inputs | draws => exact absurd (by decide) untouched
    | reg | I | pc | sp | entry | dt | st | byte | pixel | dirty | keys | changed | tone | diag => rfl

end Sys2Proof.Machine
end
